-- ==== Sys2Proof/Word.lean ====
section
/-! DEFINITION. The word types of the IFD core: the byte of both memories and the 32-bit word of the
registers LEN, POS, OUTLEN and of the host port (spec/00_scope.md R7, R8). -/

namespace Sys2Proof

/-- BYTE, the unit of both memories (R7). -/
abbrev Byte := BitVec 8

/-- A 32-bit register or host-port word: LEN_W and OUT_W are both 32 (R7). -/
abbrev Word := BitVec 32

end Sys2Proof
end

