-- ==== Sys2Proof/Config.lean ====
section
/-! DEFINITION. The constants the source fixes and the one parameter of the core it leaves open
(spec/00_scope.md R7). The constants are not configurable. -/

namespace Sys2Proof

/-- WINDOW: block size of the wraparound correction (R7). -/
def windowSize : Nat := 4096

/-- FIELD_BIAS: added to the raw 12-bit field (R7). -/
def fieldBias : Nat := 18

/-- MIN_MATCH: smallest copy length (R7). -/
def minMatch : Nat := 3

/-- FLAGS_PER_MASK: tokens governed by one mask byte (R7). -/
def flagsPerMask : Nat := 8

/-- What the block's instantiation fixes. -/
structure Config where
  /-- OUT_CAP, the capacity of O in bytes, 0 to 2^32 - 1: OPEN parameter (R7, D6). -/
  outCap : Word
  deriving DecidableEq, Repr

/-- The configuration `State.reset` carries. DESIGN CHOICE (notes/assumptions/2.md): the spec gives
OUT_CAP no value; this is the largest, with which no payload of LEN <= 477218588 overflows (R7). -/
def Config.largest : Config := { outCap := 0xFFFFFFFF#32 }

/-- FREE VALUES (notes/assumptions/8.md): the n-th value that a host read of a register in motion is
answered in RUN, "any value" (U11 of spec/93_implementation_defined.md). It has no body, so no proof
knows any value of it. -/
opaque Config.freeRead : Nat → Word

end Sys2Proof
end

