-- ==== Sys2Proof/Syntax.lean ====
section
/-! DEFINITION. The instructions of the IFD core: one constructor per row of spec/opcode_table.json,
and the context that selects an item of a payload (spec/30_encoding.md R80 to R84, R93). -/

namespace Sys2Proof

/-- One row of the opcode table per constructor. The three payload items carry no opcode bits (R93);
the two host commands are writes of CTRL (R161, R162). -/
inductive Instr where
  /-- MASK (R81, R116): the mask byte `flags`, bit k the flag of token k. -/
  | mask (flags : Byte)
  /-- LIT (R82, R130): the byte appended unchanged. -/
  | lit (v : Byte)
  /-- COPY (R83, R135): the raw field f and the length field m (match length n = m + 3). -/
  | copy (f : BitVec 12) (m : BitVec 4)
  /-- COPY.D (R92): the distance d and the length field m = n - 3. -/
  | copyD (d : BitVec 12) (m : BitVec 4)
  /-- START (R29, R161): CTRL[1:0] = 01; `ignored` is CTRL[31:2]. -/
  | start (ignored : BitVec 30)
  /-- RST (R29, R162): CTRL[1] = 1; `startBit` is CTRL[0] (RST wins), `ignored` is CTRL[31:2]. -/
  | rst (startBit : Bool) (ignored : BitVec 30)
  deriving DecidableEq, Repr

/-- Which item of a payload the context selects; nothing inside an item says what it is (R84, R93). -/
inductive ItemKind where
  | mask
  | lit
  | copy
  deriving DecidableEq, Repr

/-- The bits of an instruction together with where they stand, since the context selects the item:
bytes of the payload from the cursor on, or the value of a host write to CTRL (R93). -/
inductive Encoded where
  | payload (kind : ItemKind) (bytes : List Byte)
  | ctrl (value : Word)
  deriving DecidableEq, Repr

/-- Why bits decode to no instruction. -/
inductive DecodeError where
  /-- No byte is left where an item is due: the payload has ended (R89). -/
  | noByte
  /-- A copy is due with one byte left (R89 case d, R93). -/
  | truncatedCopy
  /-- A write of CTRL with neither command bit set: it does nothing (R29). -/
  | noCommand
  deriving DecidableEq, Repr

end Sys2Proof
end

