-- ==== Sys2Proof/Machine/State.lean ====
section
/-! DEFINITION. The state of the IFD core as plain data, the reasons a step can stop, and the state
after reset (spec/10_state.md R20 to R37, R35). -/

namespace Sys2Proof.Machine

/-- A memory space: (address, byte) cells at strictly rising addresses. An address that is not listed
holds no value (R66, R201; notes/assumptions/1.md). -/
abbrev Memory := List Host.Cell

/-- The canonical form of a memory: the listed addresses strictly rise. There is no default byte, so no
entry can equal what an unlisted address reads as. -/
abbrev Memory.wf (m : Memory) : Prop := (m.map Prod.fst).Pairwise (· < ·)

/-- STATE (R26). -/
inductive RunState where
  | idle
  | run
  | done
  | fault
  deriving DecidableEq, Repr

/-- The 2-bit code of STATE (R26). -/
def RunState.code : RunState → BitVec 2
  | .idle => 0
  | .run => 1
  | .done => 2
  | .fault => 3

/-- CAUSE (R27). -/
inductive Cause where
  | none
  | badBackReference
  | truncatedCopy
  | outputOverflow
  deriving DecidableEq, Repr

/-- The 2-bit code of CAUSE (R27). -/
def Cause.code : Cause → BitVec 2
  | .none => 0
  | .badBackReference => 1
  | .truncatedCopy => 2
  | .outputOverflow => 3

/-- An event of the host (R160). Register offsets are byte offsets from the base of the register space
(R30); register values are whole 32-bit words. -/
inductive HostEvent where
  | regRead (offset : Nat)
  | regWrite (offset : Nat) (value : Word)
  | pWrite (addr : Word) (b : Byte)
  | pRead (addr : Word)
  | oRead (addr : Word)
  | reset
  deriving DecidableEq, Repr

/-- Who moves next: the engine, or the host with one event (R6, R160). -/
inductive Turn where
  | engine
  | host (e : HostEvent)
  deriving DecidableEq, Repr

/-- What a read event of the host is answered (R163, R165). -/
inductive Reply where
  /-- The value of a register (R163). -/
  | word (v : Word)
  /-- A byte of P or O (R165). -/
  | byte (b : Byte)
  /-- "no defined value" (R165): the address holds none. -/
  | noValue
  deriving DecidableEq, Repr

/-- The state of one IFD core (R20), the block's parameter (R7), and three fields of the model's own:
`schedule`, `reply` and `freeReads` (notes/assumptions/4.md, 5.md, 8.md). CTRL holds nothing (R29) and EVT is computed
from STATE (R36, R37), so neither has a field. -/
structure State where
  /-- OUT_CAP (R7): no step writes it. -/
  cfg : Config
  /-- LEN (R21). -/
  len : Word
  /-- POS (R22). -/
  pos : Word
  /-- MASK (R23). -/
  mask : Byte
  /-- BITS (R24). -/
  bits : BitVec 4
  /-- OUTLEN (R25). -/
  outlen : Word
  /-- STATE (R26). -/
  runState : RunState
  /-- CAUSE (R27). -/
  cause : Cause
  /-- FARG (R28). -/
  farg : BitVec 16
  /-- SRC (R31), a 33-bit signed number; dead between steps. -/
  src : BitVec 33
  /-- REM (R31); dead between steps. -/
  rem : BitVec 5
  /-- P, the payload space (R32). -/
  p : Memory
  /-- O, the output space (R33). -/
  o : Memory
  /-- The model's own: the turns still to come, the next one first; when empty the engine moves. -/
  schedule : List Turn
  /-- The model's own: what the host's last read event was answered. -/
  reply : Option Reply
  /-- The model's own: how many free values host reads in RUN have taken. -/
  freeReads : Nat
  deriving DecidableEq, Repr

/-- Why the model stops with a fault. The hardware's own faults (R175) are not here: they are next
states with STATE = FAULT. -/
inductive Fault where
  /-- Raised by the engine's fetch when a byte of P below LEN was never written: a launch premise is
  not met (R201, R203 b). Safe. -/
  | payloadUnwritten
  /-- Raised by the engine's fetch when the cursor is past LEN, which no run reaches (R100, R106). Safe. -/
  | cursorPastEnd
  /-- Raised by the copy loop when O holds no value below OUTLEN, which no run reaches (R53). Safe. -/
  | outputUnwritten
  deriving DecidableEq, Repr

/-- Why the model refuses a step. -/
inductive Refusal where
  /-- Raised by `exec` for an instruction without a meaning; no arm uses it. Safe. -/
  | notModelled (mnemonic : String)
  /-- Raised by a payload item's meaning in a state whose context does not select that item (R93,
  R115): there the engine has no such step. Safe. -/
  | notSelected
  /-- Raised by PWrite, PRead and ORead while STATE = RUN (R165, R204). Safe. -/
  | hostAccessWhileRunning
  /-- Raised by RegRead and RegWrite at an offset below 0x1C that is no register's offset (R30, R160). Safe. -/
  | noSuchRegister
  deriving DecidableEq, Repr

/-- The state of a block with the given parameter right after reset, the "after reset" column of R35.
SRC and REM are "unspecified, dead" there: DESIGN CHOICE 0 (notes/assumptions/3.md). -/
def State.resetOf (cfg : Config) : State :=
  { cfg := cfg, len := 0, pos := 0, mask := 0, bits := 0, outlen := 0, runState := .idle,
    cause := .none, farg := 0, src := 0, rem := 0, p := [], o := [], schedule := [], reply := none,
    freeReads := 0 }

/-- The machine right after reset (R35, R200), with the largest OUT_CAP (notes/assumptions/2.md). -/
def State.reset : State := State.resetOf Config.largest

end Sys2Proof.Machine
end

