-- ==== Sys2Proof/Machine/Flags.lean ====
section
/-! DEFINITION. The derived predicates of the block and the flag selection. There are no condition
codes (spec/10_state.md R36); EVT, BUSY, ENDED and AT_END are computed, none is stored. -/

namespace Sys2Proof.Machine

/-- BUSY = (STATE == RUN) (R36). -/
def busy (s : State) : Bool := s.runState == .run

/-- EVT = ENDED = (STATE == DONE or STATE == FAULT) (R36, R37). -/
def evt (s : State) : Bool := s.runState == .done || s.runState == .fault

/-- AT_END = (POS == LEN), which is `cur_at_end` (R36, R102). -/
def curAtEnd (s : State) : Bool := s.pos == s.len

/-- The flag of the next token, MASK[0]: 1 selects LIT, 0 selects COPY (R119). -/
def nextFlag (s : State) : Bool := s.mask.getLsbD 0

/-- The item the context selects at P[POS] (R93, R115). -/
def selectedKind (s : State) : ItemKind :=
  if s.bits = 0 then .mask else if nextFlag s then .lit else .copy

/-- The engine's next step is the item of this kind: STATE = RUN, POS < LEN and the context selects it
(R115, the precondition the dispatcher establishes in R116, R130 and R135). -/
def selected (k : ItemKind) (s : State) : Bool :=
  s.runState == .run && decide (s.pos < s.len) && selectedKind s == k

end Sys2Proof.Machine
end

