-- ==== Sys2Proof/WellFormed.lean ====
section
/-! DEFINITION. Which instructions are well formed. No encoding is reserved or illegal
(spec/30_encoding.md R88), so only the pseudo-token COPY.D has a check (R92). -/

namespace Sys2Proof

/-- Well-formedness that the instruction alone decides: every MASK, LIT, COPY, START and RST is legal
(R88, R29); a COPY.D has 1 <= d (R92), its upper bound 4095 being the field's own. -/
def Instr.wellFormed : Instr → Bool
  | .mask _ => true
  | .lit _ => true
  | .copy _ _ => true
  | .copyD d _ => d != 0
  | .start _ => true
  | .rst _ _ => true

/-- Well-formedness at output length `n`: COPY.D d=D also needs D <= OUTLEN (R92). -/
def Instr.wellFormedAt (n : Word) : Instr → Bool
  | .mask _ => true
  | .lit _ => true
  | .copy _ _ => true
  | .copyD d _ => d != 0 && decide (d.toNat ≤ n.toNat)
  | .start _ => true
  | .rst _ _ => true

end Sys2Proof
end

