-- ==== Sys2Proof/Decode.lean ====
section
/-! DEFINITION. The decoder of payload items and CTRL commands, total and rejecting by name, then the
encoder, the pseudo-token's expansion, the static decoder and the host's table-word reader
(spec/30_encoding.md R81 to R93, spec/10_state.md R29). -/

namespace Sys2Proof

/-- f = ((hi & 0xF0) << 4) | lo, at 12 bits (R85, R138, R150). -/
def rawField (lo hi : Byte) : BitVec 12 :=
  ((hi &&& 0xF0#8).setWidth 12 <<< 4) ||| lo.setWidth 12

/-- m = hi & 0x0F, at 4 bits (R83, R137). -/
def lengthField (hi : Byte) : BitVec 4 := (hi &&& 0x0F#8).setWidth 4

/-- Decode the item of the selected kind at the head of the bytes, with the bytes after it
(R86: 1 byte for MASK and LIT, 2 for COPY, `lo` first by R55). -/
def decodePayload : ItemKind → List Byte → Except DecodeError (Instr × List Byte)
  | .mask, [] => .error .noByte
  | .mask, b :: rest => .ok (.mask b, rest)
  | .lit, [] => .error .noByte
  | .lit, b :: rest => .ok (.lit b, rest)
  | .copy, [] => .error .noByte
  | .copy, [_] => .error .truncatedCopy
  | .copy, lo :: hi :: rest => .ok (.copy (rawField lo hi) (lengthField hi), rest)

/-- Decode a value written to CTRL: bit 1 is RST and wins, bit 0 is START, bits 31:2 are ignored (R29). -/
def decodeCtrl (v : Word) : Except DecodeError (Instr × List Byte) :=
  if v.getLsbD 1 then .ok (.rst (v.getLsbD 0) (v.extractLsb' 2 30), [])
  else if v.getLsbD 0 then .ok (.start (v.extractLsb' 2 30), [])
  else .error .noCommand

/-- The decoder: the context and the bits to the instruction and the bytes left (R93). -/
def decode : Encoded → Except DecodeError (Instr × List Byte)
  | .payload kind bytes => decodePayload kind bytes
  | .ctrl v => decodeCtrl v

/-- The raw field that COPY.D d=D stands for at output length n: F = ((n - D) mod 4096 - 18) mod 4096
(R92). -/
def distanceField (d : BitVec 12) (n : Word) : BitVec 12 := (n.setWidth 12 - d) - 18#12

/-- The core instruction an instruction stands for at output length n: COPY.D becomes COPY (R92). -/
def expand (n : Word) : Instr → Instr
  | .mask flags => .mask flags
  | .lit v => .lit v
  | .copy f m => .copy f m
  | .copyD d m => .copy (distanceField d n) m
  | .start ignored => .start ignored
  | .rst startBit ignored => .rst startBit ignored

/-- The byte `lo` of a copy token, f[7:0] (R83). -/
def copyLo (f : BitVec 12) : Byte := f.extractLsb' 0 8

/-- The byte `hi` of a copy token, f[11:8] over m (R83). -/
def copyHi (f : BitVec 12) (m : BitVec 4) : Byte := f.extractLsb' 8 4 ++ m

/-- The two bytes of a copy token, `lo` at the lower address (R83, R55). -/
def copyBytes (f : BitVec 12) (m : BitVec 4) : List Byte := [copyLo f, copyHi f m]

/-- The encoder at output length n (only COPY.D reads n): the context that selects the item and its
bits (R81, R82, R83, R92, R29). -/
def encode (n : Word) : Instr → Encoded
  | .mask flags => .payload .mask [flags]
  | .lit v => .payload .lit [v]
  | .copy f m => .payload .copy (copyBytes f m)
  | .copyD d m => .payload .copy (copyBytes (distanceField d n) m)
  | .start ignored => .ctrl (ignored.setWidth 32 <<< 2 ||| 0b01#32)
  | .rst startBit ignored => .ctrl (ignored.setWidth 32 <<< 2 ||| if startBit then 0b11#32 else 0b10#32)

/-- The length in bytes that the opcode table gives an instruction (`length_bytes`; R86). -/
def lengthBytes : Instr → Nat
  | .mask _ => 1
  | .lit _ => 1
  | .copy _ _ => 2
  | .copyD _ _ => 2
  | .start _ => 4
  | .rst _ _ => 4

/-- The number of bytes an encoding takes: its payload bytes, or the 4 bytes of a CTRL word (R30). -/
def encodedBytes : Encoded → Nat
  | .payload _ bytes => bytes.length
  | .ctrl _ => 4

/-- The flags of a mask byte, token 0 first: bit 0 is used first (R81). -/
def maskFlags (b : Byte) : List Bool := (List.range flagsPerMask).map b.getLsbD

/-- The static decoder of R93: walk the bytes with the list of flags still unused; a mask when the
list is empty, else a literal or a copy by the next flag; a cut copy is reported. -/
def disassemble : List Bool → List Byte → List Instr × Option DecodeError
  | _, [] => ([], none)
  | [], b :: rest =>
    let (is, e) := disassemble (maskFlags b) rest
    (.mask b :: is, e)
  | true :: flags, b :: rest =>
    let (is, e) := disassemble flags rest
    (.lit b :: is, e)
  | false :: _, [_] => ([], some .truncatedCopy)
  | false :: flags, lo :: hi :: rest =>
    let (is, e) := disassemble flags rest
    (.copy (rawField lo hi) (lengthField hi) :: is, e)

/-- The encoding that a table word stands for, where its width alone decides the context. 8 bits is
read as the first byte of a payload, a MASK (a LIT has the same bits and is selected by a flag outside
it), 16 bits as a COPY with `lo` the low byte, 32 bits as a write of CTRL. DESIGN CHOICE
(notes/assumptions/11.md). -/
def tableEncoded (nbits w : Nat) : Option Encoded :=
  if nbits = 8 then some (.payload .mask [BitVec.ofNat 8 w])
  else if nbits = 16 then
    some (.payload .copy [BitVec.ofNat 8 (w % 256), BitVec.ofNat 8 (w / 256)])
  else if nbits = 32 then some (.ctrl (BitVec.ofNat 32 w))
  else none

/-- The instruction the decoder reads from a table word, if any. -/
def decodeTableWord (nbits w : Nat) : Option Instr :=
  match tableEncoded nbits w with
  | none => none
  | some e =>
    match decode e with
    | .ok (i, _) => some i
    | .error _ => none

end Sys2Proof
end

