-- ==== Sys2Proof/Machine/Operands.lean ====
section
/-! DEFINITION. Operand assembly of a copy token and the back-reference resolver
(spec/30_encoding.md R85, spec/43_copy.md R137 to R142, R150). -/

namespace Sys2Proof.Machine

/-- The match length n = (hi & 0x0F) + 3, 5 bits, 3 to 18 (R137). -/
def matchLength (m : BitVec 4) : BitVec 5 := m.setWidth 5 + 3#5

/-- The biased field a = (f + 18) & 0xFFF: the sum at 13 bits, then the 12-bit wrap (R138, R150). -/
def biasedField (f : BitVec 12) : BitVec 12 := (f.setWidth 13 + 18#13).setWidth 12

/-- The block base c = N & ~0xFFF at the full width of OUTLEN (R139). -/
def blockBase (n : Word) : Word := n &&& ~~~0xFFF#32

/-- The candidate position a | c (R140). -/
def candidate (f : BitVec 12) (n : Word) : Word := (biasedField f).setWidth 32 ||| blockBase n

/-- The position p after the wraparound correction, an integer that may be negative: the candidate, less
4096 if it exceeds N, unsigned and strictly (R141). -/
def corrected (f : BitVec 12) (n : Word) : Int :=
  if n < candidate f n then (candidate f n).toNat - 0x1000 else (candidate f n).toNat

/-- The resolved source position of a copy at output length N, none when it is out of bounds:
p < 0 or p >= N (R142). -/
def resolve (f : BitVec 12) (n : Word) : Option Int :=
  if corrected f n < 0 ∨ (n.toNat : Int) ≤ corrected f n then none else some (corrected f n)

/-- The bytes of a token as FARG holds them: the first byte at [7:0], the second or 0 at [15:8] (R28). -/
def tokenBytes (b0 b1 : Byte) : BitVec 16 := b1 ++ b0

/-- The FARG of a token of which only one byte counts: a zero byte over it (R130, R135 TruncatedCopy). -/
def oneByteFarg (b : Byte) : BitVec 16 := tokenBytes b 0

/-- The FARG of a copy token: its two bytes, `lo` first (R135, R182). -/
def copyFarg (f : BitVec 12) (m : BitVec 4) : BitVec 16 := tokenBytes (copyLo f) (copyHi f m)

end Sys2Proof.Machine
end

