-- ==== Sys2Proof/Machine/Ops.lean ====
section
/-! DEFINITION. The named operations over the memories and registers: memory reads and writes, the
bitstream cursor (spec/40_cursor.md), append, the copy-with-overlap unit (spec/43_copy.md R144), the end
of a run and the after-token rule (spec/41_dispatcher.md R117 to R120), TAKING A FAULT
(spec/60_exceptions.md R182) and the two ways to leave one (spec/44_host_commands.md R161, R162). -/

namespace Sys2Proof.Machine

/-! ### Memory -/

/-- Read one byte; an address that is not listed holds no value (R66, R201). -/
def Memory.read : Memory → Nat → Option Byte
  | [], _ => none
  | (a, b) :: rest, x => if a = x then some b else Memory.read rest x

/-- Write one byte, keeping the addresses strictly rising. -/
def Memory.write : Memory → Nat → Byte → Memory
  | [], x, v => [(x, v)]
  | (a, b) :: rest, x, v =>
    if x < a then (x, v) :: (a, b) :: rest
    else if x = a then (x, v) :: rest
    else (a, b) :: Memory.write rest x v

/-- MemRead(P, addr, 1): defined only below LEN (R9, R51). -/
def readP (addr : Nat) (s : State) : Option Byte :=
  if addr < s.len.toNat then s.p.read addr else none

/-- MemRead(O, addr, 1): defined only below OUTLEN (R9, R53). -/
def readO (addr : Nat) (s : State) : Option Byte :=
  if addr < s.outlen.toNat then s.o.read addr else none

/-- The append: MemWrite(O, OUTLEN, 1, b); OUTLEN <- OUTLEN + 1 (R53). -/
def appendByte (b : Byte) (s : State) : State :=
  { s with o := s.o.write s.outlen.toNat b, outlen := s.outlen + 1#32 }

/-- OUTLEN + n > OUT_CAP, the sum over the integers (R130, R143, R150). -/
def exceedsCap (n : Nat) (s : State) : Bool := decide (s.cfg.outCap.toNat < s.outlen.toNat + n)

/-! ### The bitstream cursor -/

/-- `cur_init()`: POS <- 0 (R101). -/
def curInit (s : State) : State := { s with pos := 0 }

/-- `cur_remaining()`: LEN - POS (R103). -/
def curRemaining (s : State) : Nat := s.len.toNat - s.pos.toNat

/-- Move the cursor on by k consumed bytes (R104, R105, R107). -/
def curAdvance (k : Word) (s : State) : State := { s with pos := s.pos + k }

/-- The byte `i` places after the cursor, not consumed: a model fault past LEN (R106) or where the host
wrote nothing (R201). -/
def curByte (i : Nat) (s : State) : Except Fault Byte :=
  if s.pos.toNat + i < s.len.toNat then
    match s.p.read (s.pos.toNat + i) with
    | some b => .ok b
    | none => .error .payloadUnwritten
  else .error .cursorPastEnd

/-- `cur_next1()`: the byte at POS; POS <- POS + 1 (R104). -/
def curNext1 (s : State) : Except Fault (Byte × State) :=
  match curByte 0 s with
  | .error e => .error e
  | .ok b => .ok (b, curAdvance 1 s)

/-- `cur_next2()`: the bytes (lo, hi) at POS and POS + 1; POS <- POS + 2 (R105). -/
def curNext2 (s : State) : Except Fault ((Byte × Byte) × State) :=
  match curByte 0 s, curByte 1 s with
  | .error e, _ => .error e
  | .ok _, .error e => .error e
  | .ok lo, .ok hi => .ok ((lo, hi), curAdvance 2 s)

/-- `cur_peek_token(is_copy)`: the token's bytes without moving POS; the second byte counts only for a
copy with POS + 1 < LEN, else it is 0 (R108). -/
def curPeekToken (isCopy : Bool) (s : State) : Except Fault (BitVec 16) :=
  match curByte 0 s with
  | .error e => .error e
  | .ok b0 =>
    if isCopy && decide (s.pos.toNat + 1 < s.len.toNat) then
      match curByte 1 s with
      | .error e => .error e
      | .ok b1 => .ok (tokenBytes b0 b1)
    else .ok (tokenBytes b0 0)

/-! ### The copy unit -/

/-- Load the copy unit: SRC <- p, REM <- n (R31). -/
def copyStart (p : Int) (n : BitVec 5) (s : State) : State :=
  { s with src := BitVec.ofInt 33 p, rem := n }

/-- One iteration of the copy loop with the byte read from SRC: append it, advance SRC, count REM down
(R144). -/
def copyByte (b : Byte) (s : State) : State :=
  { appendByte b s with src := s.src + 1#33, rem := s.rem - 1#5 }

/-- The copy loop, k iterations in order: each reads O at SRC, after the write of the one before it, and
appends that byte (R144). -/
def copyLoop : Nat → State → Except Fault State
  | 0, s => .ok s
  | k + 1, s =>
    match readO s.src.toNat s with
    | none => .error .outputUnwritten
    | some b => copyLoop k (copyByte b s)

/-- The copy unit: n bytes from source position p to the end of the output (R144). -/
def copyUnit (p : Int) (n : BitVec 5) (s : State) : Except Fault State :=
  copyLoop n.toNat (copyStart p n s)

/-! ### Flags of a group, and the end of a run -/

/-- A mask fetch loads the flags: MASK <- flags, BITS <- 8 (R116). -/
def loadMask (flags : Byte) (s : State) : State :=
  { s with mask := flags, bits := BitVec.ofNat 4 flagsPerMask }

/-- Use up one flag: MASK <- MASK >> 1 zero filled, BITS <- BITS - 1 (R120). -/
def shiftFlag (s : State) : State := { s with mask := s.mask >>> 1, bits := s.bits - 1#4 }

/-- END: STATE <- DONE, nothing else (R117, R118). -/
def endRun (s : State) : State := { s with runState := .done }

/-- The after-token rule: if POS == LEN the run ends and MASK and BITS are kept, else the next flag
(R120). -/
def afterToken (s : State) : State := if curAtEnd s then endRun s else shiftFlag s

/-! ### Faults -/

/-- TAKING A FAULT: STATE <- FAULT, CAUSE <- c, FARG <- the token's bytes, nothing else (R182). -/
def takeFault (c : Cause) (farg : BitVec 16) (s : State) : State :=
  { s with runState := .fault, cause := c, farg := farg }

/-! ### Leaving IDLE, DONE and FAULT: there is no return from a fault (R184), only START, RST, Reset -/

/-- START outside RUN: POS, OUTLEN, MASK, BITS, CAUSE, FARG <- 0, STATE <- RUN; O holds no value
anywhere; LEN and P are kept (R161, R35). -/
def beginRun (s : State) : State :=
  { curInit s with
    outlen := 0, mask := 0, bits := 0, cause := .none, farg := 0, runState := .run, o := [] }

/-- Reset and RST: every register at its reset value, P and O hold no value (R162, R200). The block's
parameter and the model's own fields are kept (notes/assumptions/14.md). -/
def resetBlock (s : State) : State :=
  { State.resetOf s.cfg with
    schedule := s.schedule, reply := s.reply, freeReads := s.freeReads }

/-! ### The host port -/

/-- The register at the offset as R30 lays it out, which a RegRead returns but for the registers in motion
in RUN (R163, U11): none below 0x1C where there is no register
(notes/assumptions/9.md). CTRL and unassigned offsets read 0. -/
def regValue (offset : Nat) (s : State) : Option Word :=
  if offset = 0x00 then some 0
  else if offset = 0x04 then some (s.runState.code.setWidth 32)
  else if offset = 0x08 then some (s.cause.code.setWidth 32)
  else if offset = 0x0C then some s.len
  else if offset = 0x10 then some s.pos
  else if offset = 0x14 then some s.outlen
  else if offset = 0x18 then some (s.farg.setWidth 32)
  else if 0x1C ≤ offset then some 0
  else none

/-- The registers whose value the host may not rely on in RUN: CAUSE, POS, OUTLEN, FARG (R204, U11). -/
def movesInRun (offset : Nat) : Bool :=
  offset == 0x08 || offset == 0x10 || offset == 0x14 || offset == 0x18

/-- A word cut to the bits the register at the offset has, the others reading 0 (R30). -/
def layout (offset : Nat) (w : Word) : Word :=
  if offset = 0x08 then (w.setWidth 2).setWidth 32
  else if offset = 0x18 then (w.setWidth 16).setWidth 32
  else w

/-- The free value that the next read of a register in motion returns (R163, U11): any value the register
can hold. -/
def freeRegValue (offset : Nat) (s : State) : Word := layout offset (Config.freeRead s.freeReads)

/-- One free value is used up. -/
def takeFree (s : State) : State := { s with freeReads := s.freeReads + 1 }

/-- A host write of LEN: ignored while STATE = RUN (R164). -/
def writeLen (v : Word) (s : State) : State := if busy s then s else { s with len := v }

/-- A host write of one byte of P (R165). -/
def writeP (addr : Word) (b : Byte) (s : State) : State :=
  { s with p := s.p.write addr.toNat b }

/-- What a PRead is answered: the byte if it was written since the last reset or RST, else no defined
value (R165). -/
def pReadReply (addr : Word) (s : State) : Reply :=
  match s.p.read addr.toNat with
  | some b => .byte b
  | none => .noValue

/-- What an ORead is answered: O[addr] in DONE or FAULT with addr < OUTLEN, else no defined value
(R165, R66). -/
def oReadReply (addr : Word) (s : State) : Reply :=
  if evt s then
    match readO addr.toNat s with
    | some b => .byte b
    | none => .noValue
  else .noValue

/-- The host is answered; a read changes nothing of the block (R163). -/
def setReply (r : Reply) (s : State) : State := { s with reply := some r }

end Sys2Proof.Machine
end

