-- ==== Sys2Proof/Machine/Copy.lean ====
section
/-! DEFINITION. The meanings of COPY and of the pseudo-token COPY.D (spec/43_copy.md R135,
spec/30_encoding.md R92, then spec/41_dispatcher.md R120). -/

namespace Sys2Proof.Machine

/-- A copy token that is good: the n bytes, then POS <- POS + 2 (R145) and the after-token rule (R120). -/
def copyGood (p : Int) (n : BitVec 5) (s : State) : Host.Outcome State Fault Refusal :=
  match copyUnit p n s with
  | .error e => .fault e
  | .ok t => .next (afterToken (curAdvance 2 t))

/-- The copy token (R135), its tests in the order of R181: TruncatedCopy, BadBackReference,
OutputOverflow. -/
def copyToken (f : BitVec 12) (m : BitVec 4) (s : State) : Host.Outcome State Fault Refusal :=
  if selected .copy s then
    if curRemaining s < 2 then .next (takeFault .truncatedCopy (oneByteFarg (copyLo f)) s)
    else
      match resolve f s.outlen with
      | none => .next (takeFault .badBackReference (copyFarg f m) s)
      | some p =>
        if exceedsCap (matchLength m).toNat s then
          .next (takeFault .outputOverflow (copyFarg f m) s)
        else copyGood p (matchLength m) s
  else .refused .notSelected

/-- COPY (R135). -/
def execCopy (f : BitVec 12) (m : BitVec 4) (s : State) : Host.Outcome State Fault Refusal :=
  copyToken f m s

/-- COPY.D (R92): the copy token whose raw field is the expansion at the present output length. -/
def execCopyD (d : BitVec 12) (m : BitVec 4) (s : State) : Host.Outcome State Fault Refusal :=
  copyToken (distanceField d s.outlen) m s

end Sys2Proof.Machine
end

