-- ==== Sys2Proof/Machine/Dispatcher.lean ====
section
/-! DEFINITION. The meaning of MASK, the dispatcher's fetch of a mask byte (spec/41_dispatcher.md R116). -/

namespace Sys2Proof.Machine

/-- MASK (R116): MASK <- the byte, POS <- POS + 1, BITS <- 8; nothing is appended, no fault. Outside the
context that selects it the engine has no such step (R115). -/
def execMask (flags : Byte) (s : State) : Host.Outcome State Fault Refusal :=
  if selected .mask s then .next (loadMask flags (curAdvance 1 s)) else .refused .notSelected

end Sys2Proof.Machine
end

