-- ==== Sys2Proof/Machine/HostCommands.lean ====
section
/-! DEFINITION. The meanings of the host commands START and RST (spec/44_host_commands.md R161, R162,
R167; spec/10_state.md R29: bits 31:2 are ignored and RST wins over START). -/

namespace Sys2Proof.Machine

/-- START: ignored while STATE = RUN (R167), else a new run begins (R161). -/
def execStart (_ignored : BitVec 30) (s : State) : Host.Outcome State Fault Refusal :=
  if busy s then .next s else .next (beginRun s)

/-- RST: in every state the same as Reset, whatever CTRL[0] holds (R162). -/
def execRst (_startBit : Bool) (_ignored : BitVec 30) (s : State) :
    Host.Outcome State Fault Refusal :=
  .next (resetBlock s)

end Sys2Proof.Machine
end

