-- ==== Sys2Proof/Machine/Literal.lean ====
section
/-! DEFINITION. The meaning of LIT (spec/42_literal.md R130, then spec/41_dispatcher.md R120). -/

namespace Sys2Proof.Machine

/-- LIT (R130): OutputOverflow if OUTLEN + 1 > OUT_CAP; else append V, POS <- POS + 1, and the after-token
rule (R120). -/
def execLit (v : Byte) (s : State) : Host.Outcome State Fault Refusal :=
  if selected .lit s then
    if exceedsCap 1 s then .next (takeFault .outputOverflow (oneByteFarg v) s)
    else .next (afterToken (appendByte v (curAdvance 1 s)))
  else .refused .notSelected

end Sys2Proof.Machine
end

