-- ==== Sys2Proof/Machine/Dispatch.lean ====
section
/-! DEFINITION. One arm per instruction, each a direct call of its meaning. -/

namespace Sys2Proof.Machine

def exec (i : Instr) (s : State) : Host.Outcome State Fault Refusal :=
  match i with
  | .mask flags => Sys2Proof.Machine.execMask flags s
  | .lit v => Sys2Proof.Machine.execLit v s
  | .copy f m => Sys2Proof.Machine.execCopy f m s
  | .copyD d m => Sys2Proof.Machine.execCopyD d m s
  | .start ignored => Sys2Proof.Machine.execStart ignored s
  | .rst startBit ignored => Sys2Proof.Machine.execRst startBit ignored s

end Sys2Proof.Machine
end

