-- ==== Sys2Proof/Machine/Engine.lean ====
section
/-! DEFINITION. The engine's turn: fetch the bytes of the selected item, decode, execute; END at the end
of the payload (spec/41_dispatcher.md R115). -/

namespace Sys2Proof.Machine

/-- The bytes of the item at POS, read by the cursor: `cur_next2` for a copy with both operand bytes left,
else `cur_next1` (R86, R104, R105, R136). The moved cursor is committed by the item's meaning, at the end of
a token that does not fault (R145, R182). -/
def fetchBytes (s : State) : Except Fault (List Byte) :=
  if selectedKind s = .copy ∧ 2 ≤ curRemaining s then
    match curNext2 s with
    | .error e => .error e
    | .ok ((lo, hi), _) => .ok [lo, hi]
  else
    match curNext1 s with
    | .error e => .error e
    | .ok (b, _) => .ok [b]

/-- A copy cut short at the end of the payload raises TruncatedCopy with the token peeked (R136, R177,
R182). -/
def truncatedFault (s : State) : Host.Outcome State Fault Refusal :=
  match curPeekToken true s with
  | .error e => .fault e
  | .ok farg => .next (takeFault .truncatedCopy farg s)

/-- Decode fetched bytes by the selecting context and execute what they say. -/
def runBytes (bytes : List Byte) (s : State) : Host.Outcome State Fault Refusal :=
  match decode (.payload (selectedKind s) bytes) with
  | .ok (i, _) => exec i s
  | .error .truncatedCopy => truncatedFault s
  | .error .noByte => .fault .cursorPastEnd
  | .error .noCommand => .fault .cursorPastEnd

/-- One engine step in state RUN: END if POS = LEN (R117, R118), else the item at POS (R115). -/
def engineStep (s : State) : Host.Outcome State Fault Refusal :=
  if curAtEnd s then .next (endRun s)
  else
    match fetchBytes s with
    | .error e => .fault e
    | .ok bytes => runBytes bytes s

/-- The engine's turn: in IDLE, DONE and FAULT it has no enabled step and all state is kept (R115,
R190; notes/assumptions/6.md). -/
def engineTurn (s : State) : Host.Outcome State Fault Refusal :=
  if busy s then engineStep s else .next s

end Sys2Proof.Machine
end

