-- ==== Sys2Proof/Machine/HostPort.lean ====
section
/-! DEFINITION. The host's turn: what each host event does to the block (spec/44_host_commands.md R160
to R167). -/

namespace Sys2Proof.Machine

/-- RegRead (R163, R30): the host is answered the register's value; while STATE = RUN a read of POS,
OUTLEN, CAUSE or FARG is answered a free value (R11, R204, U11; notes/assumptions/8.md). -/
def hostRegRead (offset : Nat) (s : State) : Host.Outcome State Fault Refusal :=
  if movesInRun offset && busy s then .next (setReply (.word (freeRegValue offset s)) (takeFree s))
  else match regValue offset s with
  | some v => .next (setReply (.word v) s)
  | none => .refused .noSuchRegister

/-- A write of CTRL: the command it decodes to, or nothing (R29). -/
def hostCommand (v : Word) (s : State) : Host.Outcome State Fault Refusal :=
  match decode (.ctrl v) with
  | .ok (i, _) => exec i s
  | .error _ => .next s

/-- RegWrite: CTRL is a command, LEN takes the value outside RUN, every other register and every
unassigned offset ignores it (R164, R30). -/
def hostRegWrite (offset : Nat) (v : Word) (s : State) : Host.Outcome State Fault Refusal :=
  if offset = 0x00 then hostCommand v s
  else if offset = 0x0C then .next (writeLen v s)
  else if (regValue offset s).isSome then .next s
  else .refused .noSuchRegister

/-- One host event. PWrite, PRead and ORead while STATE = RUN have no defined result and are refused
(R165, R204). -/
def hostTurn (e : HostEvent) (s : State) : Host.Outcome State Fault Refusal :=
  match e with
  | .regRead offset => hostRegRead offset s
  | .regWrite offset v => hostRegWrite offset v s
  | .pWrite addr b =>
    if busy s then .refused .hostAccessWhileRunning else .next (writeP addr b s)
  | .pRead addr =>
    if busy s then .refused .hostAccessWhileRunning else .next (setReply (pReadReply addr s) s)
  | .oRead addr =>
    if busy s then .refused .hostAccessWhileRunning else .next (setReply (oReadReply addr s) s)
  | .reset => .next (resetBlock s)

end Sys2Proof.Machine
end

