-- ==== Sys2Proof/Machine/Load.lean ====
section
/-! DEFINITION. Placing one encoded instruction where the next step takes it, and the host's launch
sequence (spec/70_reset_and_hazards.md R202). -/

namespace Sys2Proof.Machine

/-- The next turn is the engine's: an engine turn goes before a schedule that begins with the host. -/
def engineNext (s : State) : State :=
  match s.schedule with
  | .host _ :: _ => { s with schedule := .engine :: s.schedule }
  | _ => s

/-- Write bytes of P from an address on. -/
def placeBytes : Nat → List Byte → Memory → Memory
  | _, [], p => p
  | a, b :: rest, p => placeBytes (a + 1) rest (p.write a b)

/-- Where the bytes go: at POS, or at P[0] where they would not fit below the largest LEN (R21). -/
def placeAt (k : Nat) (s : State) : Word :=
  if s.pos.toNat + k < 2 ^ 32 then s.pos else 0

/-- Put payload bytes at the cursor, inside the payload, in a run. -/
def placePayload (bytes : List Byte) (s : State) : State :=
  let at0 := placeAt bytes.length s
  let stop := at0.toNat + bytes.length
  { s with
    runState := .run, pos := at0, p := placeBytes at0.toNat bytes s.p,
    len := if stop ≤ s.len.toNat then s.len else BitVec.ofNat 32 stop }

/-- Make the context select the item: BITS = 0 for a mask; a flag left and MASK[0] = 1 or 0 for a literal
or a copy (R93). -/
def placeContext (k : ItemKind) (s : State) : State :=
  match k with
  | .mask => { s with bits := 0, mask := 0 }
  | .lit => { s with bits := if s.bits = 0 then 8 else s.bits, mask := s.mask ||| 1 }
  | .copy => { s with bits := if s.bits = 0 then 8 else s.bits, mask := s.mask &&& 0xFE }

/-- Place an encoded instruction so that the very next step runs it (notes/assumptions/12.md): a payload
item at the cursor with the context that selects it, a command as the host's next event. -/
def place (e : Encoded) (s : State) : State :=
  match e with
  | .payload k bytes => engineNext (placeContext k (placePayload bytes s))
  | .ctrl v => { s with schedule := .host (.regWrite 0x00 v) :: s.schedule }

/-- The host's turns that write the payload bytes from an address on (R202 step 2). -/
def loadTurns : Nat → List Byte → List Turn
  | _, [] => []
  | a, b :: rest => .host (.pWrite (BitVec.ofNat 32 a) b) :: loadTurns (a + 1) rest

/-- The launch: write P, write LEN, write CTRL.START (R202). -/
def launchTurns (payload : List Byte) : List Turn :=
  loadTurns 0 payload ++
    [.host (.regWrite 0x0C (BitVec.ofNat 32 payload.length)), .host (.regWrite 0x00 1)]

end Sys2Proof.Machine
end

