-- ==== Sys2Proof/Machine/Step.lean ====
section
/-! DEFINITION. One step of the model: the turn at the head of the schedule, or the engine's when the
schedule is empty (spec/00_scope.md R6, R11; notes/assumptions/4.md). -/

namespace Sys2Proof.Machine

/-- The state after the head turn was taken off the schedule. -/
def State.popTurn (s : State) : State := { s with schedule := s.schedule.tail }

/-- One step. -/
def step (s : State) : Host.Outcome State Fault Refusal :=
  match s.schedule with
  | [] => engineTurn s
  | .engine :: _ => engineTurn s.popTurn
  | .host e :: _ => hostTurn e s.popTurn

/-- s with a table word placed where the next step takes its instruction; unchanged for a width the
table does not have (notes/assumptions/12.md). -/
def State.withFetchWord (s : State) (nbits w : Nat) : State :=
  match tableEncoded nbits w with
  | some e => place e s
  | none => s

end Sys2Proof.Machine
end

