-- ==== Sys2Proof/Machine/Reference.lean ====
section
/-! DEFINITION. The reference function `decompress` of the whole run (spec/41_dispatcher.md R122), over
the payload as a list of bytes and the output as a growing list, with the resolver's arithmetic on
integers. It is written apart from the machine: the step function is claimed to compute it. -/

namespace Sys2Proof.Machine

/-- What `decompress` returns (R122): Ok(out), or Fault(cause, pos, farg, out). -/
inductive RunResult where
  | ok (out : List Byte)
  | fault (cause : Cause) (pos : Nat) (farg : BitVec 16) (out : List Byte)
  deriving DecidableEq, Repr

/-- The resolver of R122 on integers: a = (f + 18) mod 4096, c the length rounded down to a multiple of
4096, p = a + c, less 4096 if p > len(out). -/
def refPosition (f : Nat) (n : Nat) : Int :=
  let a := (f + fieldBias) % windowSize
  let c := n - n % windowSize
  if n < a + c then ((a + c : Nat) : Int) - windowSize else ((a + c : Nat) : Int)

/-- The copy loop of R122, k bytes from position p of the list that grows inside the loop. -/
def refCopy : Nat → Nat → List Byte → List Byte
  | 0, _, out => out
  | k + 1, p, out =>
    match out[p]? with
    | some b => refCopy k (p + 1) (out ++ [b])
    | none => out

/-- The copy branch of R122 once both bytes are read: the fault it returns, or the longer output. -/
def refCopyToken (cap pos : Nat) (lo hi : Byte) (out : List Byte) : Except RunResult (List Byte) :=
  let n := hi.toNat % 16 + minMatch
  let p := refPosition (hi.toNat / 16 * 256 + lo.toNat) out.length
  if p < 0 ∨ (out.length : Int) ≤ p then
    .error (.fault .badBackReference pos (tokenBytes lo hi) out)
  else if cap < out.length + n then .error (.fault .outputOverflow pos (tokenBytes lo hi) out)
  else .ok (refCopy n p.toNat out)

/-- The loops of R122: `flags` are the flags of the mask still unused, `pos` the bytes consumed, the list
the bytes left. The end of the list is `pos == LEN`: the run returns Ok(out). -/
def refRun (cap : Nat) : List Bool → Nat → List Byte → List Byte → RunResult
  | _, _, out, [] => .ok out
  | [], pos, out, b :: rest => refRun cap (maskFlags b) (pos + 1) out rest
  | true :: flags, pos, out, b :: rest =>
    if cap < out.length + 1 then .fault .outputOverflow pos (tokenBytes b 0) out
    else refRun cap flags (pos + 1) (out ++ [b]) rest
  | false :: _, pos, out, [b] => .fault .truncatedCopy pos (tokenBytes b 0) out
  | false :: flags, pos, out, lo :: hi :: rest =>
    match refCopyToken cap pos lo hi out with
    | .error r => r
    | .ok out' => refRun cap flags (pos + 2) out' rest

/-- `decompress(P, LEN, OUT_CAP)` with P[0 .. LEN-1] as the list (R122). -/
def decompress (payload : List Byte) (cap : Nat) : RunResult := refRun cap [] 0 [] payload

end Sys2Proof.Machine
end

