-- ==== Sys2Proof/Safety.lean ====
section
/-! DEFINITION. The terms claims are stated in: the invariants of spec/10_state.md R34, the launch
premises of spec/70_reset_and_hazards.md R203, the host's duties of R204, and what the end state of a run
is (spec/41_dispatcher.md R122). -/

namespace Sys2Proof.Machine

/-! ### The invariants of R34, one by one -/

/-- R34 item 1, where LEN is the register's current value (IDLE and RUN): POS <= LEN. -/
abbrev PosInPayload (s : State) : Prop :=
  s.runState = .idle ∨ s.runState = .run → s.pos ≤ s.len

/-- R34 item 2: BITS <= 8. -/
abbrev BitsInRange (s : State) : Prop := s.bits ≤ 8

/-- R34 item 3: OUTLEN <= OUT_CAP. -/
abbrev OutlenInCapacity (s : State) : Prop := s.outlen ≤ s.cfg.outCap

/-- R34 item 4: MASK < 2^BITS in RUN. -/
abbrev MaskShifted (s : State) : Prop := s.runState = .run → s.mask.toNat < 2 ^ s.bits.toNat

/-- R34 item 5: CAUSE is not 0 exactly in FAULT. -/
abbrev CauseIffFault (s : State) : Prop := s.cause ≠ .none ↔ s.runState = .fault

/-- R34 item 7: IDLE implies POS, OUTLEN, BITS, MASK, CAUSE, FARG = 0. -/
abbrev IdleIsClear (s : State) : Prop :=
  s.runState = .idle →
    s.pos = 0 ∧ s.outlen = 0 ∧ s.bits = 0 ∧ s.mask = 0 ∧ s.cause = .none ∧ s.farg = 0

/-- R34 item 8: in RUN with 0 < BITS < 8, POS < LEN. -/
abbrev TokenByteLeft (s : State) : Prop :=
  s.runState = .run → 0 < s.bits → s.bits < 8 → s.pos < s.len

/-- R34 item 9: FARG is not 0 only in FAULT. -/
abbrev FargOnlyInFault (s : State) : Prop := s.farg ≠ 0 → s.runState = .fault

/-- R34 item 10: OUTLEN <= 9 * POS. -/
abbrev OutputBound (s : State) : Prop := s.outlen.toNat ≤ 9 * s.pos.toNat

/-- O holds values at exactly the addresses 0 to OUTLEN - 1 (R33, R66), in canonical form. -/
abbrev OutputHeld (s : State) : Prop := s.o.map Prod.fst = List.range s.outlen.toNat

/-- The canonical form of P. -/
abbrev PayloadCanonical (s : State) : Prop := s.p.wf

/-- The invariant of the model: R34 (items 1 and 8 for the states in which LEN is the value the run uses,
item 6 being about the LEN of a run that ended), R66 and the canonical form. -/
def BlockInv (s : State) : Prop :=
  PosInPayload s ∧ BitsInRange s ∧ OutlenInCapacity s ∧ MaskShifted s ∧ CauseIffFault s ∧
    IdleIsClear s ∧ TokenByteLeft s ∧ FargOnlyInFault s ∧ OutputBound s ∧ OutputHeld s ∧
    PayloadCanonical s

/-! ### Launch and duties of the host -/

/-- R203 premise (b): every address below LEN of P has been written. -/
abbrev PayloadWritten (s : State) : Prop := ∀ a < s.len.toNat, (s.p.read a).isSome

/-- A well launched run (R203): STATE != RUN at START, and the payload written. -/
abbrev WellLaunched (s : State) : Prop := s.runState ≠ .run ∧ PayloadWritten s

/-- What the host may do in a state (R204): no PWrite, PRead or ORead while STATE = RUN. -/
def hostMay (e : HostEvent) (s : State) : Bool :=
  match e with
  | .regRead _ => true
  | .regWrite _ _ => true
  | .pWrite _ _ => !busy s
  | .pRead _ => !busy s
  | .oRead _ => !busy s
  | .reset => true

/-- P[0 .. LEN-1] is this list of bytes. -/
def HoldsPayload (payload : List Byte) (s : State) : Prop :=
  s.len.toNat = payload.length ∧ ∀ i < payload.length, s.p.read i = payload[i]?

/-! ### End states -/

/-- O[0 .. OUTLEN-1] is this list of bytes. -/
def OutputIs (out : List Byte) (s : State) : Prop :=
  s.outlen.toNat = out.length ∧ ∀ i < out.length, readO i s = out[i]?

/-- The end state a result of `decompress` stands for (R122). -/
def EndsAs (r : RunResult) (s : State) : Prop :=
  match r with
  | .ok out => s.runState = .done ∧ s.pos = s.len ∧ s.cause = .none ∧ OutputIs out s
  | .fault c pos farg out =>
    s.runState = .fault ∧ s.cause = c ∧ s.pos.toNat = pos ∧ s.farg = farg ∧ OutputIs out s

/-- A run is over when STATE is DONE or FAULT (R208). -/
def runOver (s : State) : Bool := evt s

/-! ### Terms of the statements about single instructions and steps -/

/-- The turn is the engine's: the schedule is empty or begins with an engine turn. -/
def engineMoves (s : State) : Bool :=
  match s.schedule with
  | [] => true
  | .engine :: _ => true
  | .host _ :: _ => false

/-- The distance d = (N - a) mod 4096 of a copy with raw field f at output length N (R147). -/
def copyDistance (f : BitVec 12) (n : Word) : Nat :=
  (((n.toNat : Int) - (biasedField f).toNat) % windowSize).toNat

/-- The number of bytes an instruction appends when it raises no fault (R25). -/
def appendedBytes : Instr → Nat
  | .mask _ => 0
  | .lit _ => 1
  | .copy _ m => m.toNat + minMatch
  | .copyD _ m => m.toNat + minMatch
  | .start _ => 0
  | .rst _ _ => 0

/-- The instruction is a payload item: it is not a host command. -/
def isItem : Instr → Bool
  | .mask _ => true
  | .lit _ => true
  | .copy _ _ => true
  | .copyD _ _ => true
  | .start _ => false
  | .rst _ _ => false

/-- The effect of the after-token rule (R120) between the state before a token and the state after it. -/
def EndedOrShifted (s t : State) : Prop :=
  (t.pos = s.len → t.runState = .done ∧ t.mask = s.mask ∧ t.bits = s.bits) ∧
    (t.pos ≠ s.len → t.runState = .run ∧ t.mask = s.mask >>> 1 ∧ t.bits = s.bits - 1)

/-- What no payload item may change: the parameter, LEN, P and the model's own fields
(notes/assumptions/4.md, 5.md, 8.md). -/
def InputsKept (s t : State) : Prop :=
  t.cfg = s.cfg ∧ t.len = s.len ∧ t.p = s.p ∧ t.schedule = s.schedule ∧
    t.reply = s.reply ∧ t.freeReads = s.freeReads

/-- The mask register after k flags of the fetched byte were used: the byte shifted right by k, 8 - k flags
left (R23, R24, R120). -/
def FlagsUsed (flags : Byte) (k : Nat) (s : State) : Prop :=
  s.mask = flags >>> k ∧ s.bits.toNat = 8 - k

/-- The state with the fault record of cause c and bytes w, and nothing else changed (R182). -/
def faulted (c : Cause) (w : BitVec 16) (s : State) : State :=
  { s with runState := .fault, cause := c, farg := w }

/-- Apply a view to the next state of an outcome, for comparing two steps up to that view. -/
def viewNext (view : State → State) :
    Host.Outcome State Fault Refusal → Host.Outcome State Fault Refusal
  | .next t => .next (view t)
  | .fault r => .fault r
  | .refused r => .refused r

/-- The view without the copy unit's transient state (R31). -/
def withoutCopyUnit (s : State) : State := { s with src := 0, rem := 0 }

/-- The view without P. -/
def withoutPayload (s : State) : State := { s with p := [] }

/-- The view without MASK. -/
def withoutMask (s : State) : State := { s with mask := 0 }

/-- The state with one host event as the next turn, before the turns still to come. -/
def withEvent (e : HostEvent) (s : State) : State := { s with schedule := .host e :: s.schedule }

end Sys2Proof.Machine
end

