-- ==== Sys2Proof/Certificates/Slice0/Obligations.lean ====
section
/-! DEFINITION. The statements about the IFD core, stated from the numbered rules of spec/. -/

open Sys2Proof Sys2Proof.Machine

/-! ### Encoding -/

/-- Words written out from the spec's encodings decode to what they stand for (Table E of
spec/95_test_vectors.md; R81, R82, R83, R29). -/
def Obligations.EncodedWordsDecode : Prop :=
  decode (.payload .copy [0xBC, 0xA7]) = .ok (.copy 0xABC 7, []) ∧
  decode (.payload .copy [0xEE, 0xF2]) = .ok (.copy 0xFEE 2, []) ∧
  decode (.payload .copy [0x34, 0x12, 0x99]) = .ok (.copy 0x134 2, [0x99]) ∧
  decode (.payload .copy [0x41]) = .error .truncatedCopy ∧
  decode (.payload .mask [0x5D, 0x00]) = .ok (.mask 0x5D, [0x00]) ∧
  decode (.payload .lit [0xEE, 0xF2]) = .ok (.lit 0xEE, [0xF2]) ∧
  decode (.ctrl 0x00000001) = .ok (.start 0, []) ∧
  decode (.ctrl 0x00000002) = .ok (.rst false 0, []) ∧
  decode (.ctrl 0x00000003) = .ok (.rst true 0, []) ∧
  decode (.ctrl 0xFFFFFFFC) = .error .noCommand

/-- Decoding an encoded instruction gives it back, COPY.D as the COPY it stands for, at every output
length and with every operand (R81, R82, R83, R92, R29). -/
def Obligations.DecodeEncodeRoundTrip : Prop :=
  ∀ (n : Word) (i : Instr), decode (encode n i) = .ok (expand n i, []) ∧
    ((∀ d m, i ≠ .copyD d m) → expand n i = i)

/-- Every encoding that decodes is the encoding of what it decodes to, so no bit is dropped; and no byte
value is reserved: every byte decodes as a mask and as a literal, every two bytes as a copy (R81, R82,
R83, R88, R29). -/
def Obligations.EncodeDecodeRoundTrip : Prop :=
  (∀ (n : Word) (k : ItemKind) (bytes rest : List Byte) (i : Instr),
    decode (.payload k bytes) = .ok (i, rest) →
      ∃ used, encode n i = .payload k used ∧ bytes = used ++ rest) ∧
  (∀ (n v : Word) (rest : List Byte) (i : Instr),
    decode (.ctrl v) = .ok (i, rest) → encode n i = .ctrl v ∧ rest = []) ∧
  (∀ (b : Byte) (rest : List Byte),
    decode (.payload .mask (b :: rest)) = .ok (.mask b, rest) ∧
    decode (.payload .lit (b :: rest)) = .ok (.lit b, rest)) ∧
  (∀ (lo hi : Byte) (rest : List Byte), ∃ f m,
    decode (.payload .copy (lo :: hi :: rest)) = .ok (.copy f m, rest))

/-- The operands of a copy token as numbers: n = (hi & 0x0F) + 3, f = {hi[7:4], lo},
a = (f + 18) mod 4096, each in its range (R85). -/
def Obligations.CopyOperandsFromBytes : Prop :=
  ∀ lo hi : Byte,
    (matchLength (lengthField hi)).toNat = hi.toNat % 16 + 3 ∧
    (rawField lo hi).toNat = hi.toNat / 16 * 256 + lo.toNat ∧
    (biasedField (rawField lo hi)).toNat = (hi.toNat / 16 * 256 + lo.toNat + 18) % 4096 ∧
    3 ≤ (matchLength (lengthField hi)).toNat ∧ (matchLength (lengthField hi)).toNat ≤ 18

/-- COPY.D d=D, n=N at output length OUTLEN stands for COPY with F = ((OUTLEN - D) mod 4096 - 18) mod
4096, its bytes are lo = F[7:0] and hi = {F[11:8], N - 3}, and that F resolves to OUTLEN - D (R92). -/
def Obligations.CopyDStandsForCopy : Prop :=
  ∀ (d : BitVec 12) (m : BitVec 4) (s : State),
    1 ≤ d.toNat → d.toNat ≤ s.outlen.toNat →
    ∃ f : BitVec 12,
      (f.toNat : Int) = (((s.outlen.toNat : Int) - d.toNat) % 4096 - 18) % 4096 ∧
      exec (.copyD d m) s = exec (.copy f m) s ∧
      encode s.outlen (.copyD d m) = encode s.outlen (.copy f m) ∧
      (copyLo f).toNat = f.toNat % 256 ∧
      (copyHi f m).toNat = f.toNat / 256 * 16 + m.toNat ∧
      resolve f s.outlen = some ((s.outlen.toNat : Int) - d.toNat)

/-! ### The resolver -/

/-- The distance form of the resolver: with d = (N - a) mod 4096 = (N - f - 18) mod 4096 a copy with both
bytes raises BadBackReference if and only if d = 0 or d > N, and otherwise resolves to N - d, a distance
from 1 to 4095 (R147). -/
def Obligations.ResolverDistanceForm : Prop :=
  (∀ (f : BitVec 12) (n : Word),
    (copyDistance f n : Int) = ((n.toNat : Int) - f.toNat - 18) % 4096 ∧
    (resolve f n = none ↔ copyDistance f n = 0 ∨ n.toNat < copyDistance f n) ∧
    (¬ (copyDistance f n = 0 ∨ n.toNat < copyDistance f n) →
      resolve f n = some ((n.toNat : Int) - copyDistance f n) ∧
      1 ≤ copyDistance f n ∧ copyDistance f n ≤ 4095 ∧ copyDistance f n ≤ n.toNat)) ∧
  (∀ (f : BitVec 12) (m : BitVec 4) (s : State),
    s.runState = .run → 0 < s.bits → s.mask.getLsbD 0 = false → 2 ≤ curRemaining s →
    ((∃ t, exec (.copy f m) s = .next t ∧ t.runState = .fault ∧ t.cause = .badBackReference) ↔
      copyDistance f s.outlen = 0 ∨ s.outlen.toNat < copyDistance f s.outlen))

/-- Which biased fields are good at a given output length: below 4096 exactly a < N (none at N = 0, only
a = 0 at N = 1), from 4096 on all but a = N mod 4096 (R153). -/
def Obligations.GoodCopyFieldsByOutputLength : Prop :=
  ∀ (f : BitVec 12) (n : Word),
    (n.toNat < 4096 → ((resolve f n).isSome ↔ (f.toNat + 18) % 4096 < n.toNat)) ∧
    (4096 ≤ n.toNat → ((resolve f n).isSome ↔ (f.toNat + 18) % 4096 ≠ n.toNat % 4096))

/-! ### The instructions complete -/

/-- MASK: enabled when STATE = RUN, BITS = 0 and POS < LEN, it loads MASK, moves POS by 1 and sets BITS to
8; nothing else changes (R116). -/
def Obligations.MaskTokenCompletes : Prop :=
  ∀ (flags : Byte) (s : State),
    s.runState = .run → s.bits = 0 → s.pos < s.len →
    exec (.mask flags) s = .next { s with mask := flags, pos := s.pos + 1, bits := 8 }

/-- LIT: it appends V at O[OUTLEN] and moves OUTLEN and POS by 1, then the run ends or the next flag is
due; when OUTLEN = OUT_CAP before it, it raises OutputOverflow and changes only the fault record (R130).
V stands for the byte at P[POS] (notes/assumptions/16.md). -/
def Obligations.LiteralTokenCompletes : Prop :=
  ∀ (v : Byte) (s : State),
    s.runState = .run → 0 < s.bits → s.mask.getLsbD 0 = true → s.pos < s.len →
    (s.outlen.toNat + 1 ≤ s.cfg.outCap.toNat →
      ∃ t, exec (.lit v) s = .next t ∧
        readO s.outlen.toNat t = some v ∧ (∀ a < s.outlen.toNat, readO a t = readO a s) ∧
        t.outlen.toNat = s.outlen.toNat + 1 ∧ t.pos = s.pos + 1 ∧ EndedOrShifted s t ∧
        InputsKept s t ∧ t.cause = s.cause ∧ t.farg = s.farg ∧ t.src = s.src ∧ t.rem = s.rem) ∧
    (s.cfg.outCap.toNat < s.outlen.toNat + 1 →
      exec (.lit v) s = .next (faulted .outputOverflow (0#8 ++ v) s))

/-- COPY: with both operand bytes, a distance d from 1 to N, room for the n bytes and O holding its first N
bytes, it appends O[N + i] = O[N - d + (i mod d)] for i below n, leaves the bytes below N, moves OUTLEN by
n and POS by 2, and then the run ends or the next flag is due (R135, R148). -/
def Obligations.CopyTokenCompletes : Prop :=
  ∀ (f : BitVec 12) (m : BitVec 4) (s : State),
    s.runState = .run → 0 < s.bits → s.mask.getLsbD 0 = false → 2 ≤ curRemaining s →
    1 ≤ copyDistance f s.outlen → copyDistance f s.outlen ≤ s.outlen.toNat →
    s.outlen.toNat + (m.toNat + 3) ≤ s.cfg.outCap.toNat →
    (∀ a < s.outlen.toNat, (s.o.read a).isSome) →
    ∃ t, exec (.copy f m) s = .next t ∧
      (∀ a < s.outlen.toNat, readO a t = readO a s) ∧
      (∀ i < m.toNat + 3, readO (s.outlen.toNat + i) t =
        readO (s.outlen.toNat - copyDistance f s.outlen + i % copyDistance f s.outlen) s) ∧
      t.outlen.toNat = s.outlen.toNat + (m.toNat + 3) ∧ t.pos = s.pos + 2 ∧
      EndedOrShifted s t ∧ InputsKept s t ∧ t.cause = s.cause ∧ t.farg = s.farg

/-- COPY.D: with 1 <= d <= OUTLEN it completes as the copy of n bytes from distance d (R92, R148). -/
def Obligations.CopyDTokenCompletes : Prop :=
  ∀ (d : BitVec 12) (m : BitVec 4) (s : State),
    s.runState = .run → 0 < s.bits → s.mask.getLsbD 0 = false → 2 ≤ curRemaining s →
    1 ≤ d.toNat → d.toNat ≤ s.outlen.toNat →
    s.outlen.toNat + (m.toNat + 3) ≤ s.cfg.outCap.toNat →
    (∀ a < s.outlen.toNat, (s.o.read a).isSome) →
    ∃ t, exec (.copyD d m) s = .next t ∧
      (∀ a < s.outlen.toNat, readO a t = readO a s) ∧
      (∀ i < m.toNat + 3, readO (s.outlen.toNat + i) t =
        readO (s.outlen.toNat - d.toNat + i % d.toNat) s) ∧
      t.outlen.toNat = s.outlen.toNat + (m.toNat + 3) ∧ t.pos = s.pos + 2 ∧
      EndedOrShifted s t ∧ InputsKept s t ∧ t.cause = s.cause ∧ t.farg = s.farg

/-- START outside RUN begins a run: POS, OUTLEN, MASK, BITS, CAUSE, FARG are 0, STATE is RUN, LEN and P
are unchanged, and O holds no value anywhere (R161, R35, R66). That the model's own list for O is emptied
is its reading of "holds no value anywhere" (notes/assumptions/15.md), and that OUT_CAP and its own fields
are kept is the model's (notes/assumptions/2.md, 4.md, 5.md, 8.md). -/
def Obligations.StartBeginsRun : Prop :=
  ∀ (ignored : BitVec 30) (s : State), s.runState ≠ .run →
    ∃ t, exec (.start ignored) s = .next t ∧
      t.pos = 0 ∧ t.outlen = 0 ∧ t.mask = 0 ∧ t.bits = 0 ∧ t.cause = .none ∧ t.farg = 0 ∧
      t.runState = .run ∧ InputsKept s t ∧ (∀ a, t.o.read a = none ∧ readO a t = none)

/-- START while STATE = RUN is ignored: no register changes (R167). -/
def Obligations.StartIgnoredInRun : Prop :=
  ∀ (ignored : BitVec 30) (s : State), s.runState = .run → exec (.start ignored) s = .next s

/-- RST acts in every state, RUN included, whatever CTRL[0] is: every register takes its reset value and P
and O hold no value; it is what the Reset event does (R162). -/
def Obligations.RstResetsBlock : Prop :=
  ∀ (startBit : Bool) (ignored : BitVec 30) (s : State),
    ∃ t, exec (.rst startBit ignored) s = .next t ∧
      t.runState = .idle ∧ t.cause = .none ∧ t.farg = 0 ∧ t.len = 0 ∧ t.pos = 0 ∧ t.outlen = 0 ∧
      t.mask = 0 ∧ t.bits = 0 ∧ (∀ a, t.p.read a = none) ∧ (∀ a, t.o.read a = none) ∧
      step (withEvent .reset s) = .next t

/-! ### Faults -/

/-- BadBackReference: a copy with both bytes whose corrected position p is negative or at or beyond OUTLEN
writes STATE, CAUSE (BadBackReference) and FARG = {hi, lo}, and nothing else, whatever OUT_CAP is (R135,
R176, R181, R182). The operands stand for the bytes at POS (notes/assumptions/16.md). -/
def Obligations.BadBackReferenceFaults : Prop :=
  ∀ (f : BitVec 12) (m : BitVec 4) (s : State),
    s.runState = .run → 0 < s.bits → s.mask.getLsbD 0 = false → 2 ≤ curRemaining s →
    (corrected f s.outlen < 0 ∨ (s.outlen.toNat : Int) ≤ corrected f s.outlen) →
    exec (.copy f m) s = .next (faulted .badBackReference (copyHi f m ++ copyLo f) s)

/-- TruncatedCopy: where the flag says copy and one byte b is left, the engine's turn writes STATE, CAUSE
(TruncatedCopy) and FARG = {0x00, b}, and nothing else of the block: b is not appended, not skipped, not a
literal (R177, R182). COPY and COPY.D themselves raise it too when LEN - POS = 1; there FARG is built from
the operand `lo` (notes/assumptions/16.md), and COPY.D does so outside R92's range of d as well, which is
the model's choice (notes/assumptions/10.md). The step takes its turn off the model's own schedule
(notes/assumptions/4.md). -/
def Obligations.TruncatedCopyFaults : Prop :=
  (∀ (b : Byte) (s : State),
    engineMoves s = true → s.runState = .run → 0 < s.bits → s.mask.getLsbD 0 = false →
    curRemaining s = 1 → readP s.pos.toNat s = some b →
    step s = .next (faulted .truncatedCopy (0#8 ++ b) s.popTurn)) ∧
  (∀ (f : BitVec 12) (m : BitVec 4) (s : State),
    s.runState = .run → 0 < s.bits → s.mask.getLsbD 0 = false → curRemaining s = 1 →
    exec (.copy f m) s = .next (faulted .truncatedCopy (0#8 ++ copyLo f) s) ∧
    ∀ d, distanceField d s.outlen = f →
      exec (.copyD d m) s = .next (faulted .truncatedCopy (0#8 ++ copyLo f) s))

/-- OutputOverflow: LIT when OUTLEN + 1 > OUT_CAP (FARG = {0x00, V}) and a good COPY when OUTLEN + n >
OUT_CAP (FARG = {hi, lo}); nothing of the token is appended (R178). The operands stand for the bytes at
POS (notes/assumptions/16.md). -/
def Obligations.OutputOverflowFaults : Prop :=
  (∀ (v : Byte) (s : State),
    s.runState = .run → 0 < s.bits → s.mask.getLsbD 0 = true → s.pos < s.len →
    s.cfg.outCap.toNat < s.outlen.toNat + 1 →
    exec (.lit v) s = .next (faulted .outputOverflow (0#8 ++ v) s)) ∧
  (∀ (f : BitVec 12) (m : BitVec 4) (s : State),
    s.runState = .run → 0 < s.bits → s.mask.getLsbD 0 = false → 2 ≤ curRemaining s →
    0 ≤ corrected f s.outlen → corrected f s.outlen < s.outlen.toNat →
    s.cfg.outCap.toNat < s.outlen.toNat + (m.toNat + 3) →
    exec (.copy f m) s = .next (faulted .outputOverflow (copyHi f m ++ copyLo f) s))

/-- A turn of the engine that enters FAULT from RUN changes STATE, CAUSE and FARG only, CAUSE is not None,
and FARG is what the cursor peeks at the token (R182); the step takes its turn off the model's own
schedule (notes/assumptions/4.md). -/
def Obligations.FaultEntryChangesOnlyRecord : Prop :=
  ∀ (s t : State), engineMoves s = true → s.runState = .run → step s = .next t →
    t.runState = .fault →
    t.cause ≠ .none ∧ t = faulted t.cause t.farg s.popTurn ∧
    curPeekToken (selectedKind s == .copy) s = .ok t.farg

/-! ### The frames -/

/-- What a payload item leaves unchanged when it answers a next state: the parameter, LEN, P and the
model's own fields; CAUSE and FARG unless it faults; SRC and REM for MASK and LIT; and every byte of O
outside the bytes it appends, which start at OUTLEN (none for MASK, 1 for LIT, n for COPY and COPY.D). If
it faults, every register but STATE, CAUSE, FARG and every byte of O is unchanged. -/
def Obligations.PayloadItemFrame : Prop :=
  ∀ (i : Instr) (s t : State), isItem i = true → exec i s = .next t →
    InputsKept s t ∧
    (∀ a, a < s.outlen.toNat ∨ s.outlen.toNat + appendedBytes i ≤ a → t.o.read a = s.o.read a) ∧
    (t.runState ≠ .fault → t.cause = s.cause ∧ t.farg = s.farg) ∧
    (t.runState = .fault → t.pos = s.pos ∧ t.outlen = s.outlen ∧ t.mask = s.mask ∧
      t.bits = s.bits ∧ t.src = s.src ∧ t.rem = s.rem ∧ t.o = s.o) ∧
    ((∀ f m, i ≠ .copy f m) → (∀ d m, i ≠ .copyD d m) → t.src = s.src ∧ t.rem = s.rem)

/-- What the host commands leave unchanged: START keeps LEN, P, the parameter, SRC, REM and the model's
own fields, and in RUN everything (R161, R167); RST keeps the parameter and the model's own fields (R162).
That START keeps SRC and REM, which the spec calls unspecified, is the model's choice
(notes/assumptions/3.md), and so is what RST keeps (notes/assumptions/14.md). -/
def Obligations.HostCommandFrame : Prop :=
  (∀ (ignored : BitVec 30) (s t : State), exec (.start ignored) s = .next t →
    InputsKept s t ∧ t.src = s.src ∧ t.rem = s.rem ∧ (s.runState = .run → t = s)) ∧
  (∀ (startBit : Bool) (ignored : BitVec 30) (s t : State), exec (.rst startBit ignored) s = .next t →
    t.cfg = s.cfg ∧ t.schedule = s.schedule ∧ t.reply = s.reply ∧ t.freeReads = s.freeReads)

/-! ### The step, the dispatcher and the end of a run -/

/-- A step runs the decoded instruction: in RUN, before the end of the payload, when the bytes at POS
decode by the context to an instruction, the engine's turn is exec of it, on the state whose schedule has
lost the turn; and a host write of CTRL that decodes to a command is exec of it. The schedule of turns is
the model's own (notes/assumptions/4.md). -/
def Obligations.StepRunsDecodedInstruction : Prop :=
  (∀ (i : Instr) (bytes : List Byte) (s : State),
    s.runState = .run → s.pos ≠ s.len →
    (∀ j < bytes.length, readP (s.pos.toNat + j) s = bytes[j]?) →
    decode (.payload (selectedKind s) bytes) = .ok (i, []) →
    (s.schedule = [] → step s = exec i s) ∧
    (∀ rest, s.schedule = .engine :: rest → step s = exec i { s with schedule := rest })) ∧
  (∀ (i : Instr) (v : Word) (s : State), decode (.ctrl v) = .ok (i, []) →
    step (withEvent (.regWrite 0x00 v) s) = exec i s)

/-- The dispatcher's table for POS < LEN: BITS = 0 fetches the mask, BITS > 0 executes the literal or the
copy that MASK[0] selects (R115, R119), on the state whose schedule has lost the turn
(notes/assumptions/4.md). -/
def Obligations.DispatcherSelectsByContext : Prop :=
  ∀ (s : State) (b : Byte),
    engineMoves s = true → s.runState = .run → readP s.pos.toNat s = some b →
    (s.bits = 0 → step s = exec (.mask b) s.popTurn) ∧
    (0 < s.bits → s.mask.getLsbD 0 = true → step s = exec (.lit b) s.popTurn) ∧
    (∀ hi, 0 < s.bits → s.mask.getLsbD 0 = false → readP (s.pos.toNat + 1) s = some hi →
      step s = exec (.copy (rawField b hi) (lengthField hi)) s.popTurn)

/-- END: in RUN with POS = LEN, at a group boundary (BITS = 0) or after a trailing mask (BITS > 0), the
engine's turn sets STATE to DONE and changes nothing else of the block; no byte is read (R117, R118). The
step takes its turn off the model's own schedule (notes/assumptions/4.md). -/
def Obligations.EngineEndsRunAtPayloadEnd : Prop :=
  ∀ (s : State), engineMoves s = true → s.runState = .run → s.pos = s.len →
    step s = .next { s.popTurn with runState := .done }

/-- In IDLE, DONE and FAULT the engine has no enabled step (R115) and all state is kept (R190). That its
turn then answers the same state is the model's reading (notes/assumptions/6.md). -/
def Obligations.EngineRestsOutsideRun : Prop :=
  ∀ (s : State), s.runState ≠ .run →
    (s.schedule = [] → step s = .next s) ∧
    (∀ rest, s.schedule = .engine :: rest → step s = .next { s with schedule := rest })

/-- The flags of a mask are used least significant first. A mask fetch leaves no flag used; with k < 8 flags
of the fetched byte used, the next flag is bit k of that byte, and an engine's turn that stays in RUN uses
one flag more; so after the fetch and k tokens MASK is the byte shifted by k and BITS is 8 - k (R81, R116,
R119, R120). -/
def Obligations.MaskFlagsInOrder : Prop :=
  (∀ (flags : Byte) (s t : State), exec (.mask flags) s = .next t → FlagsUsed flags 0 t) ∧
  (∀ (flags : Byte) (k : Nat) (s : State), k < 8 → FlagsUsed flags k s →
    s.mask.getLsbD 0 = flags.getLsbD k ∧
    ∀ t, engineMoves s = true → s.runState = .run → step s = .next t → t.runState = .run →
      FlagsUsed flags (k + 1) t)

/-- Of MASK only the flag MASK[0] decides a token's step: two states that agree on all but the other
seven bits step to states that agree on all but MASK (R119, R87). -/
def Obligations.OnlyTheNextFlagMatters : Prop :=
  ∀ (s : State) (other : Byte), engineMoves s = true → s.mask.getLsbD 0 = other.getLsbD 0 →
    viewNext withoutMask (step { s with mask := other }) = viewNext withoutMask (step s)

/-- The engine reads the payload in order, through the cursor, and moves POS by what it read. In a turn of
the engine cur_next1 returns the byte at POS and moves POS by 1, and that byte becomes the mask, or the byte
that a literal appends, and POS of the next state is the moved cursor (R104, R116, R130). cur_next2 returns
the bytes at POS and POS + 1, the first as `lo`, and moves POS by 2, and those bytes are the operands of the
copy that the turn runs, and POS of the next state is the moved cursor (R105, R135, R145). -/
def Obligations.CursorReadsInOrder : Prop :=
  (∀ (s : State) (b : Byte),
    engineMoves s = true → s.runState = .run → s.pos < s.len → s.p.read s.pos.toNat = some b →
    ∃ moved, curNext1 s = .ok (b, moved) ∧ moved.pos.toNat = s.pos.toNat + 1 ∧
      (s.bits = 0 → ∃ t, step s = .next t ∧ t.mask = b ∧ t.pos = moved.pos) ∧
      (0 < s.bits → s.mask.getLsbD 0 = true → s.outlen.toNat + 1 ≤ s.cfg.outCap.toNat →
        ∃ t, step s = .next t ∧ readO s.outlen.toNat t = some b ∧ t.pos = moved.pos)) ∧
  (∀ (s : State) (lo hi : Byte),
    engineMoves s = true → s.runState = .run → 0 < s.bits → s.mask.getLsbD 0 = false →
    2 ≤ curRemaining s → s.p.read s.pos.toNat = some lo → s.p.read (s.pos.toNat + 1) = some hi →
    ∃ moved, curNext2 s = .ok ((lo, hi), moved) ∧ moved.pos.toNat = s.pos.toNat + 2 ∧
      step s = exec (.copy (rawField lo hi) (lengthField hi)) s.popTurn ∧
      (1 ≤ copyDistance (rawField lo hi) s.outlen →
        copyDistance (rawField lo hi) s.outlen ≤ s.outlen.toNat →
        s.outlen.toNat + (hi.toNat % 16 + 3) ≤ s.cfg.outCap.toNat →
        (∀ a < s.outlen.toNat, (s.o.read a).isSome) →
        ∃ t, step s = .next t ∧ t.pos = moved.pos ∧
          ∀ i < hi.toNat % 16 + 3, readO (s.outlen.toNat + i) t =
            readO (s.outlen.toNat - copyDistance (rawField lo hi) s.outlen +
              i % copyDistance (rawField lo hi) s.outlen) s))

/-! ### Reset and the host port -/

/-- The registers after reset and after START (R35): the values the spec gives in both columns (SRC and
REM, "unspecified", are not stated), EVT included. START emptying the model's O is log entry 15
(notes/assumptions/15.md). -/
def Obligations.RegistersAfterResetAndStart : Prop :=
  (State.reset.runState = .idle ∧ State.reset.cause = .none ∧ State.reset.farg = 0 ∧
    State.reset.len = 0 ∧ State.reset.pos = 0 ∧ State.reset.outlen = 0 ∧ State.reset.mask = 0 ∧
    State.reset.bits = 0 ∧ evt State.reset = false ∧
    (∀ a, State.reset.p.read a = none) ∧ (∀ a, State.reset.o.read a = none)) ∧
  (∀ (ignored : BitVec 30) (s : State), s.runState ≠ .run →
    ∃ t, exec (.start ignored) s = .next t ∧ t.runState = .run ∧ t.cause = .none ∧ t.farg = 0 ∧
      t.len = s.len ∧ t.pos = 0 ∧ t.outlen = 0 ∧ t.mask = 0 ∧ t.bits = 0 ∧ evt t = false ∧
      t.p = s.p ∧ (∀ a, t.o.read a = none))

/-- The Reset event acts in every state and gives every register its reset value, EVT included; the memories
hold no value; and after it the engine's step leaves STATE at IDLE (R200). -/
def Obligations.ResetEventResetsBlock : Prop :=
  ∀ (s : State), ∃ t, step (withEvent .reset s) = .next t ∧
    t.runState = .idle ∧ t.cause = .none ∧ t.farg = 0 ∧ t.len = 0 ∧ t.pos = 0 ∧ t.outlen = 0 ∧
    t.mask = 0 ∧ t.bits = 0 ∧ evt t = false ∧ (∀ a, t.p.read a = none ∧ t.o.read a = none) ∧
    (∀ b ignored, exec (.rst b ignored) s = .next t) ∧
    (∀ u, engineTurn t = .next u → u.runState = .idle)

/-- CTRL: bit 0 alone is START, bit 1 is RST and wins over bit 0, neither bit does nothing, bits 31:2 are
ignored, and CTRL reads as 0 (R29). -/
def Obligations.CtrlWordCommands : Prop :=
  ∀ (v : Word) (s : State),
    (v.getLsbD 1 = true →
      step (withEvent (.regWrite 0x00 v) s) = step (withEvent (.regWrite 0x00 2) s) ∧
      ∀ b ignored, step (withEvent (.regWrite 0x00 v) s) = exec (.rst b ignored) s) ∧
    (v.getLsbD 1 = false → v.getLsbD 0 = true →
      step (withEvent (.regWrite 0x00 v) s) = step (withEvent (.regWrite 0x00 1) s) ∧
      ∀ ignored, step (withEvent (.regWrite 0x00 v) s) = exec (.start ignored) s) ∧
    (v.getLsbD 1 = false → v.getLsbD 0 = false →
      step (withEvent (.regWrite 0x00 v) s) = .next s) ∧
    step (withEvent (.regRead 0x00) s) = .next { s with reply := some (.word 0) }

/-- RegRead changes nothing of the block and returns the register's value as R30 lays it out: STATUS (IDLE
0, RUN 1, DONE 2, FAULT 3, R26), LEN, CTRL and the unassigned offsets in every state; POS, OUTLEN, CAUSE
(None 0, BadBackReference 1, TruncatedCopy 2, OutputOverflow 3, R27) and FARG outside RUN. In RUN a read of
these four completes and changes nothing of the block, and the answer is some value of the register's
width: which one is a free value (R163, R204, U11; notes/assumptions/8.md). -/
def Obligations.HostReadsRegisters : Prop :=
  ∀ (s : State),
    step (withEvent (.regRead 0x00) s) = .next { s with reply := some (.word 0) } ∧
    (∃ w, step (withEvent (.regRead 0x04) s) = .next { s with reply := some (.word w) } ∧
      (s.runState = .idle → w = 0) ∧ (s.runState = .run → w = 1) ∧
      (s.runState = .done → w = 2) ∧ (s.runState = .fault → w = 3)) ∧
    step (withEvent (.regRead 0x0C) s) = .next { s with reply := some (.word s.len) } ∧
    (∀ offset, 0x1C ≤ offset →
      step (withEvent (.regRead offset) s) = .next { s with reply := some (.word 0) }) ∧
    (s.runState ≠ .run →
      (∃ w, step (withEvent (.regRead 0x08) s) = .next { s with reply := some (.word w) } ∧
        (s.cause = .none → w = 0) ∧ (s.cause = .badBackReference → w = 1) ∧
        (s.cause = .truncatedCopy → w = 2) ∧ (s.cause = .outputOverflow → w = 3)) ∧
      step (withEvent (.regRead 0x10) s) = .next { s with reply := some (.word s.pos) } ∧
      step (withEvent (.regRead 0x14) s) = .next { s with reply := some (.word s.outlen) } ∧
      step (withEvent (.regRead 0x18) s) =
        .next { s with reply := some (.word (s.farg.setWidth 32)) }) ∧
    (s.runState = .run →
      ∀ offset, (offset = 0x08 ∨ offset = 0x10 ∨ offset = 0x14 ∨ offset = 0x18) →
        ∃ w : Word, step (withEvent (.regRead offset) s) =
            .next { s with reply := some (.word w), freeReads := s.freeReads + 1 } ∧
          (offset = 0x08 → w.toNat < 4) ∧ (offset = 0x18 → w.toNat < 65536))

/-- RegWrite of LEN: outside RUN LEN takes all 32 bits and nothing else changes, in RUN it is ignored;
writes of STATUS, CAUSE, POS, OUTLEN, FARG and unassigned offsets are ignored in every state; a write of
CTRL is START, RST or nothing by its low bits (R164). -/
def Obligations.HostWritesRegisters : Prop :=
  ∀ (v : Word) (s : State),
    (s.runState ≠ .run → step (withEvent (.regWrite 0x0C v) s) = .next { s with len := v }) ∧
    (s.runState = .run → step (withEvent (.regWrite 0x0C v) s) = .next s) ∧
    (∀ offset, (offset = 0x04 ∨ offset = 0x08 ∨ offset = 0x10 ∨ offset = 0x14 ∨ offset = 0x18 ∨
      0x1C ≤ offset) → step (withEvent (.regWrite offset v) s) = .next s) ∧
    (v.getLsbD 1 = true → step (withEvent (.regWrite 0x00 v) s) = exec (.rst false 0) s) ∧
    (v.getLsbD 1 = false → v.getLsbD 0 = true →
      step (withEvent (.regWrite 0x00 v) s) = exec (.start 0) s) ∧
    (v.getLsbD 1 = false → v.getLsbD 0 = false →
      step (withEvent (.regWrite 0x00 v) s) = .next s)

/-- Outside RUN: PWrite sets one byte of P and nothing else, PRead answers a written byte, ORead answers
O[addr] in DONE or FAULT below OUTLEN (R165). In RUN all three are refused, the result being undefined
(R165, R204). -/
def Obligations.HostAccessesMemories : Prop :=
  (∀ (addr : Word) (b : Byte) (s : State), s.runState ≠ .run →
    ∃ t, step (withEvent (.pWrite addr b) s) = .next t ∧ t.p.read addr.toNat = some b ∧
      (∀ a, a ≠ addr.toNat → t.p.read a = s.p.read a) ∧ t = { s with p := t.p }) ∧
  (∀ (addr : Word) (b : Byte) (s : State), s.runState ≠ .run → s.p.read addr.toNat = some b →
    step (withEvent (.pRead addr) s) = .next { s with reply := some (.byte b) }) ∧
  (∀ (addr : Word) (b : Byte) (s : State), s.runState = .done ∨ s.runState = .fault →
    addr < s.outlen → s.o.read addr.toNat = some b →
    step (withEvent (.oRead addr) s) = .next { s with reply := some (.byte b) }) ∧
  (∀ (e : HostEvent) (s : State), s.runState = .run →
    (∃ addr b, e = .pWrite addr b ∨ e = .pRead addr ∨ e = .oRead addr) →
    step (withEvent e s) = .refused .hostAccessWhileRunning)

/-- EVT is 1 exactly when STATE is DONE or FAULT, and falls when START, RST or Reset leaves DONE or FAULT
(R37). -/
def Obligations.EvtFollowsState : Prop :=
  (∀ s : State, evt s = true ↔ s.runState = .done ∨ s.runState = .fault) ∧
  (∀ s : State, evt s = true →
    (∀ ignored, ∃ t, exec (.start ignored) s = .next t ∧ evt t = false) ∧
    (∀ b ignored, ∃ t, exec (.rst b ignored) s = .next t ∧ evt t = false) ∧
    (∃ t, step (withEvent .reset s) = .next t ∧ evt t = false))

/-! ### Whole-machine rules -/

/-- STATE changes only so: the engine leaves RUN, to DONE or FAULT; RST or Reset goes to IDLE; START enters
RUN from IDLE, DONE or FAULT (R26, R184). -/
def Obligations.RunStateTransitions : Prop :=
  ∀ (s t : State), step s = .next t → t.runState ≠ s.runState →
    (engineMoves s = true ∧ s.runState = .run ∧ (t.runState = .done ∨ t.runState = .fault)) ∨
    (∃ v rest, s.schedule = .host (.regWrite 0x00 v) :: rest ∧ v.getLsbD 1 = true ∧
      t.runState = .idle) ∨
    (∃ v rest, s.schedule = .host (.regWrite 0x00 v) :: rest ∧ v.getLsbD 1 = false ∧
      v.getLsbD 0 = true ∧ s.runState ≠ .run ∧ t.runState = .run) ∨
    (∃ rest, s.schedule = .host .reset :: rest ∧ t.runState = .idle)

/-- The engine never writes P, and never LEN (R32, R21, R64). -/
def Obligations.EngineLeavesPayloadAlone : Prop :=
  ∀ (s t : State), engineMoves s = true → step s = .next t →
    t.p = s.p ∧ t.len = s.len ∧ t.cfg = s.cfg ∧ t.reply = s.reply ∧ t.freeReads = s.freeReads

/-- Output grows monotonically, by at most 18 bytes a step, and a byte of O once written is never written
again in the same run (R25, R53). -/
def Obligations.OutputBytesNeverRewritten : Prop :=
  ∀ (s t : State), engineMoves s = true → step s = .next t →
    s.outlen.toNat ≤ t.outlen.toNat ∧ t.outlen.toNat ≤ s.outlen.toNat + 18 ∧
    ∀ a < s.outlen.toNat, readO a t = readO a s

/-- The cursor only moves forward: an engine step keeps POS, or adds 1 or 2 and stays within LEN; a step
that stays in RUN always moves it (R107, R121). -/
def Obligations.CursorMovesForward : Prop :=
  ∀ (s t : State), engineMoves s = true → s.runState = .run → step s = .next t →
    (t.pos = s.pos ∨ t.pos.toNat = s.pos.toNat + 1 ∨ t.pos.toNat = s.pos.toNat + 2) ∧
    (t.pos ≠ s.pos → t.pos ≤ s.len) ∧ (t.runState = .run → s.pos < t.pos)

/-- DONE is entered only with the whole payload consumed, and FAULT only with POS at a token inside the
payload (R109, R34 item 6, R208). -/
def Obligations.DoneMeansPayloadConsumed : Prop :=
  ∀ (s t : State), engineMoves s = true → s.runState = .run → step s = .next t →
    (t.runState = .done → t.pos = t.len) ∧ (t.runState = .fault → t.pos < t.len)

/-- The invariants of R34 hold after reset. -/
def Obligations.InvAtReset : Prop := BlockInv State.reset

/-- Every step keeps the invariants of R34: POS within LEN, BITS at most 8, OUTLEN within OUT_CAP and at
most 9 * POS, MASK below 2^BITS, CAUSE and FARG as STATE says, O listed exactly below OUTLEN, P in
canonical form. -/
def Obligations.StepKeepsInv : Prop :=
  ∀ (s t : State), BlockInv s → step s = .next t → BlockInv t

/-- Every run ends: from a running state that meets the invariants, with the payload written and the host
quiet, at most LEN - POS + 1 steps lead to DONE or FAULT (R121). -/
def Obligations.RunTerminates : Prop :=
  ∀ (s : State), BlockInv s → s.runState = .run → s.schedule = [] → PayloadWritten s →
    ∃ (k : Nat) (t : State), k ≤ s.len.toNat - s.pos.toNat + 1 ∧
      Sys2Proof.core.run k s = .next t ∧ runOver t = true

/-- The run as a whole computes the reference function: started with a written payload, the machine
reaches within LEN + 1 steps the end state that `decompress` of that payload and OUT_CAP gives (R122). -/
def Obligations.RunComputesDecompress : Prop :=
  ∀ (payload : List Byte) (s : State),
    s.runState ≠ .run → s.schedule = [] → HoldsPayload payload s →
    ∃ (t0 : State) (k : Nat) (t : State), exec (.start 0) s = .next t0 ∧
      k ≤ payload.length + 1 ∧ Sys2Proof.core.run k t0 = .next t ∧
      EndsAs (decompress payload s.cfg.outCap.toNat) t

/-- No state of one run influences the next: START makes two blocks with the same LEN, P and OUT_CAP
(and the same turns to come) equal in all but the copy unit's dead state, whatever they held (R38; START
keeping SRC and REM is the model's choice, notes/assumptions/3.md). -/
def Obligations.StartForgetsEarlierRun : Prop :=
  ∀ (ignored : BitVec 30) (s1 s2 : State), s1.runState ≠ .run → s2.runState ≠ .run →
    InputsKept s1 s2 →
    ∃ t1 t2, exec (.start ignored) s1 = .next t1 ∧ exec (.start ignored) s2 = .next t2 ∧
      withoutCopyUnit t1 = withoutCopyUnit t2

/-- SRC and REM are dead between steps: two states that differ only there step alike (R31). -/
def Obligations.CopyUnitDeadBetweenSteps : Prop :=
  ∀ (s1 s2 : State), withoutCopyUnit s1 = withoutCopyUnit s2 →
    viewNext withoutCopyUnit (step s1) = viewNext withoutCopyUnit (step s2)

/-- What is stored in P at LEN and above cannot influence an engine step (R51). -/
def Obligations.BytesBeyondLenNeverMatter : Prop :=
  ∀ (s : State) (p : Memory), engineMoves s = true →
    (∀ a < s.len.toNat, p.read a = s.p.read a) →
    viewNext withoutPayload (step { s with p := p }) = viewNext withoutPayload (step s)
end

