-- ==== Sys2Proof/Laws/Decode.lean ====
section
/-! SUPPORT. The fields of a copy token as numbers, and that its bytes and its fields determine each
other. -/

namespace Sys2Proof

theorem highNibble_toNat : ∀ hi : Byte,
    ((hi &&& 0xF0#8).setWidth 12 <<< 4).toNat = hi.toNat / 16 * 256 := by decide

theorem rawField_toNat (lo hi : Byte) : (rawField lo hi).toNat = hi.toNat / 16 * 256 + lo.toNat := by
  have h : (lo.setWidth 12).toNat = lo.toNat := by
    have := lo.isLt
    rw [BitVec.toNat_setWidth]; omega
  rw [rawField, BitVec.toNat_or, highNibble_toNat, h,
    show hi.toNat / 16 * 256 = (hi.toNat / 16) <<< 8 by rw [Nat.shiftLeft_eq],
    ← Nat.shiftLeft_add_eq_or_of_lt lo.isLt]

theorem lengthField_toNat : ∀ hi : Byte, (lengthField hi).toNat = hi.toNat % 16 := by decide

theorem copyLo_toNat (f : BitVec 12) : (copyLo f).toNat = f.toNat % 256 := by
  simp [copyLo]

theorem copyHi_toNat (f : BitVec 12) (m : BitVec 4) :
    (copyHi f m).toNat = f.toNat / 256 * 16 + m.toNat := by
  have := f.isLt
  rw [copyHi, BitVec.toNat_append, BitVec.extractLsb'_toNat, Nat.shiftRight_eq_div_pow,
    Nat.mod_eq_of_lt (by omega), ← Nat.shiftLeft_add_eq_or_of_lt m.isLt, Nat.shiftLeft_eq]

end Sys2Proof

namespace Sys2Proof.Machine

theorem matchLength_toNat (m : BitVec 4) : (matchLength m).toNat = m.toNat + 3 := by
  have := m.isLt
  rw [matchLength, BitVec.toNat_add, BitVec.toNat_setWidth]
  simp
  omega

theorem biasedField_toNat (f : BitVec 12) : (biasedField f).toNat = (f.toNat + 18) % 4096 := by
  simp [biasedField]

theorem blockBase_eq_shift (n : Word) : blockBase n = (n >>> 12) <<< 12 := by
  apply BitVec.eq_of_getLsbD_eq
  intro i hi
  have hm : (~~~0xFFF#32).getLsbD i = decide (12 ≤ i) := by
    interval_cases i <;> decide
  rw [blockBase, BitVec.getLsbD_and, hm, BitVec.getLsbD_shiftLeft, BitVec.getLsbD_ushiftRight]
  by_cases h : 12 ≤ i
  · simp [h, hi, Nat.add_sub_cancel' h]
  · simp [h, Nat.lt_of_not_le h]

theorem blockBase_toNat (n : Word) : (blockBase n).toNat = n.toNat - n.toNat % 4096 := by
  have := n.isLt
  rw [blockBase_eq_shift, BitVec.toNat_shiftLeft, BitVec.toNat_ushiftRight, Nat.shiftLeft_eq,
    Nat.shiftRight_eq_div_pow]
  omega

theorem candidate_toNat (f : BitVec 12) (n : Word) :
    (candidate f n).toNat = (f.toNat + 18) % 4096 + (n.toNat - n.toNat % 4096) := by
  have ha : (biasedField f).toNat < 2 ^ 12 := (biasedField f).isLt
  have hb : n.toNat - n.toNat % 4096 = (n.toNat / 4096) <<< 12 := by
    rw [Nat.shiftLeft_eq]; omega
  have hw : ((biasedField f).setWidth 32).toNat = (biasedField f).toNat := by
    rw [BitVec.toNat_setWidth]; omega
  rw [candidate, BitVec.toNat_or, hw, blockBase_toNat, hb, Nat.or_comm,
    ← Nat.shiftLeft_add_eq_or_of_lt ha, biasedField_toNat, Nat.add_comm]

/-- The corrected position as integer arithmetic. -/
theorem corrected_eq (f : BitVec 12) (n : Word) :
    corrected f n =
      if n.toNat < (f.toNat + 18) % 4096 + (n.toNat - n.toNat % 4096) then
        (((f.toNat + 18) % 4096 + (n.toNat - n.toNat % 4096) : Nat) : Int) - 4096
      else (((f.toNat + 18) % 4096 + (n.toNat - n.toNat % 4096) : Nat) : Int) := by
  simp only [corrected, BitVec.lt_def, candidate_toNat]

/-- What a good resolution gives: a position inside the output produced so far. -/
theorem resolve_bounds {f : BitVec 12} {n : Word} {p : Int} (h : resolve f n = some p) :
    0 ≤ p ∧ p < n.toNat := by
  unfold resolve at h
  split at h
  · cases h
  · simp only [Option.some.injEq] at h; omega

theorem resolve_eq_some {f : BitVec 12} {n : Word} {p : Int} (h : resolve f n = some p) :
    p = corrected f n := by
  unfold resolve at h
  split at h
  · cases h
  · simpa using h.symm

end Sys2Proof.Machine
end

