-- ==== Sys2Proof/Laws/State.lean ====
section
/-! SUPPORT. What every named update does to every field of State, one lemma each, so that no proof
unfolds a record update. -/

namespace Sys2Proof.Machine

section curInit

@[simp] theorem curInit_cfg (s : State) : (curInit s).cfg = s.cfg := rfl
@[simp] theorem curInit_len (s : State) : (curInit s).len = s.len := rfl
@[simp] theorem curInit_pos (s : State) : (curInit s).pos = 0 := rfl
@[simp] theorem curInit_mask (s : State) : (curInit s).mask = s.mask := rfl
@[simp] theorem curInit_bits (s : State) : (curInit s).bits = s.bits := rfl
@[simp] theorem curInit_outlen (s : State) : (curInit s).outlen = s.outlen := rfl
@[simp] theorem curInit_runState (s : State) : (curInit s).runState = s.runState := rfl
@[simp] theorem curInit_cause (s : State) : (curInit s).cause = s.cause := rfl
@[simp] theorem curInit_farg (s : State) : (curInit s).farg = s.farg := rfl
@[simp] theorem curInit_src (s : State) : (curInit s).src = s.src := rfl
@[simp] theorem curInit_rem (s : State) : (curInit s).rem = s.rem := rfl
@[simp] theorem curInit_p (s : State) : (curInit s).p = s.p := rfl
@[simp] theorem curInit_o (s : State) : (curInit s).o = s.o := rfl
@[simp] theorem curInit_schedule (s : State) : (curInit s).schedule = s.schedule := rfl
@[simp] theorem curInit_reply (s : State) : (curInit s).reply = s.reply := rfl
@[simp] theorem curInit_freeReads (s : State) : (curInit s).freeReads = s.freeReads := rfl

end curInit

section curAdvance

@[simp] theorem curAdvance_cfg (k : Word) (s : State) : (curAdvance k s).cfg = s.cfg := rfl
@[simp] theorem curAdvance_len (k : Word) (s : State) : (curAdvance k s).len = s.len := rfl
@[simp] theorem curAdvance_pos (k : Word) (s : State) : (curAdvance k s).pos = s.pos + k := rfl
@[simp] theorem curAdvance_mask (k : Word) (s : State) : (curAdvance k s).mask = s.mask := rfl
@[simp] theorem curAdvance_bits (k : Word) (s : State) : (curAdvance k s).bits = s.bits := rfl
@[simp] theorem curAdvance_outlen (k : Word) (s : State) : (curAdvance k s).outlen = s.outlen := rfl
@[simp] theorem curAdvance_runState (k : Word) (s : State) : (curAdvance k s).runState = s.runState := rfl
@[simp] theorem curAdvance_cause (k : Word) (s : State) : (curAdvance k s).cause = s.cause := rfl
@[simp] theorem curAdvance_farg (k : Word) (s : State) : (curAdvance k s).farg = s.farg := rfl
@[simp] theorem curAdvance_src (k : Word) (s : State) : (curAdvance k s).src = s.src := rfl
@[simp] theorem curAdvance_rem (k : Word) (s : State) : (curAdvance k s).rem = s.rem := rfl
@[simp] theorem curAdvance_p (k : Word) (s : State) : (curAdvance k s).p = s.p := rfl
@[simp] theorem curAdvance_o (k : Word) (s : State) : (curAdvance k s).o = s.o := rfl
@[simp] theorem curAdvance_schedule (k : Word) (s : State) : (curAdvance k s).schedule = s.schedule := rfl
@[simp] theorem curAdvance_reply (k : Word) (s : State) : (curAdvance k s).reply = s.reply := rfl
@[simp] theorem curAdvance_freeReads (k : Word) (s : State) : (curAdvance k s).freeReads = s.freeReads := rfl

end curAdvance

section appendByte

@[simp] theorem appendByte_cfg (b : Byte) (s : State) : (appendByte b s).cfg = s.cfg := rfl
@[simp] theorem appendByte_len (b : Byte) (s : State) : (appendByte b s).len = s.len := rfl
@[simp] theorem appendByte_pos (b : Byte) (s : State) : (appendByte b s).pos = s.pos := rfl
@[simp] theorem appendByte_mask (b : Byte) (s : State) : (appendByte b s).mask = s.mask := rfl
@[simp] theorem appendByte_bits (b : Byte) (s : State) : (appendByte b s).bits = s.bits := rfl
@[simp] theorem appendByte_outlen (b : Byte) (s : State) : (appendByte b s).outlen = s.outlen + 1#32 := rfl
@[simp] theorem appendByte_runState (b : Byte) (s : State) : (appendByte b s).runState = s.runState := rfl
@[simp] theorem appendByte_cause (b : Byte) (s : State) : (appendByte b s).cause = s.cause := rfl
@[simp] theorem appendByte_farg (b : Byte) (s : State) : (appendByte b s).farg = s.farg := rfl
@[simp] theorem appendByte_src (b : Byte) (s : State) : (appendByte b s).src = s.src := rfl
@[simp] theorem appendByte_rem (b : Byte) (s : State) : (appendByte b s).rem = s.rem := rfl
@[simp] theorem appendByte_p (b : Byte) (s : State) : (appendByte b s).p = s.p := rfl
@[simp] theorem appendByte_o (b : Byte) (s : State) : (appendByte b s).o = s.o.write s.outlen.toNat b := rfl
@[simp] theorem appendByte_schedule (b : Byte) (s : State) : (appendByte b s).schedule = s.schedule := rfl
@[simp] theorem appendByte_reply (b : Byte) (s : State) : (appendByte b s).reply = s.reply := rfl
@[simp] theorem appendByte_freeReads (b : Byte) (s : State) : (appendByte b s).freeReads = s.freeReads := rfl

end appendByte

section copyStart

@[simp] theorem copyStart_cfg (q : Int) (n : BitVec 5) (s : State) : (copyStart q n s).cfg = s.cfg := rfl
@[simp] theorem copyStart_len (q : Int) (n : BitVec 5) (s : State) : (copyStart q n s).len = s.len := rfl
@[simp] theorem copyStart_pos (q : Int) (n : BitVec 5) (s : State) : (copyStart q n s).pos = s.pos := rfl
@[simp] theorem copyStart_mask (q : Int) (n : BitVec 5) (s : State) : (copyStart q n s).mask = s.mask := rfl
@[simp] theorem copyStart_bits (q : Int) (n : BitVec 5) (s : State) : (copyStart q n s).bits = s.bits := rfl
@[simp] theorem copyStart_outlen (q : Int) (n : BitVec 5) (s : State) : (copyStart q n s).outlen = s.outlen := rfl
@[simp] theorem copyStart_runState (q : Int) (n : BitVec 5) (s : State) : (copyStart q n s).runState = s.runState := rfl
@[simp] theorem copyStart_cause (q : Int) (n : BitVec 5) (s : State) : (copyStart q n s).cause = s.cause := rfl
@[simp] theorem copyStart_farg (q : Int) (n : BitVec 5) (s : State) : (copyStart q n s).farg = s.farg := rfl
@[simp] theorem copyStart_src (q : Int) (n : BitVec 5) (s : State) : (copyStart q n s).src = BitVec.ofInt 33 q := rfl
@[simp] theorem copyStart_rem (q : Int) (n : BitVec 5) (s : State) : (copyStart q n s).rem = n := rfl
@[simp] theorem copyStart_p (q : Int) (n : BitVec 5) (s : State) : (copyStart q n s).p = s.p := rfl
@[simp] theorem copyStart_o (q : Int) (n : BitVec 5) (s : State) : (copyStart q n s).o = s.o := rfl
@[simp] theorem copyStart_schedule (q : Int) (n : BitVec 5) (s : State) : (copyStart q n s).schedule = s.schedule := rfl
@[simp] theorem copyStart_reply (q : Int) (n : BitVec 5) (s : State) : (copyStart q n s).reply = s.reply := rfl
@[simp] theorem copyStart_freeReads (q : Int) (n : BitVec 5) (s : State) : (copyStart q n s).freeReads = s.freeReads := rfl

end copyStart

section copyByte

@[simp] theorem copyByte_cfg (b : Byte) (s : State) : (copyByte b s).cfg = s.cfg := rfl
@[simp] theorem copyByte_len (b : Byte) (s : State) : (copyByte b s).len = s.len := rfl
@[simp] theorem copyByte_pos (b : Byte) (s : State) : (copyByte b s).pos = s.pos := rfl
@[simp] theorem copyByte_mask (b : Byte) (s : State) : (copyByte b s).mask = s.mask := rfl
@[simp] theorem copyByte_bits (b : Byte) (s : State) : (copyByte b s).bits = s.bits := rfl
@[simp] theorem copyByte_outlen (b : Byte) (s : State) : (copyByte b s).outlen = s.outlen + 1#32 := rfl
@[simp] theorem copyByte_runState (b : Byte) (s : State) : (copyByte b s).runState = s.runState := rfl
@[simp] theorem copyByte_cause (b : Byte) (s : State) : (copyByte b s).cause = s.cause := rfl
@[simp] theorem copyByte_farg (b : Byte) (s : State) : (copyByte b s).farg = s.farg := rfl
@[simp] theorem copyByte_src (b : Byte) (s : State) : (copyByte b s).src = s.src + 1#33 := rfl
@[simp] theorem copyByte_rem (b : Byte) (s : State) : (copyByte b s).rem = s.rem - 1#5 := rfl
@[simp] theorem copyByte_p (b : Byte) (s : State) : (copyByte b s).p = s.p := rfl
@[simp] theorem copyByte_o (b : Byte) (s : State) : (copyByte b s).o = s.o.write s.outlen.toNat b := rfl
@[simp] theorem copyByte_schedule (b : Byte) (s : State) : (copyByte b s).schedule = s.schedule := rfl
@[simp] theorem copyByte_reply (b : Byte) (s : State) : (copyByte b s).reply = s.reply := rfl
@[simp] theorem copyByte_freeReads (b : Byte) (s : State) : (copyByte b s).freeReads = s.freeReads := rfl

end copyByte

section loadMask

@[simp] theorem loadMask_cfg (flags : Byte) (s : State) : (loadMask flags s).cfg = s.cfg := rfl
@[simp] theorem loadMask_len (flags : Byte) (s : State) : (loadMask flags s).len = s.len := rfl
@[simp] theorem loadMask_pos (flags : Byte) (s : State) : (loadMask flags s).pos = s.pos := rfl
@[simp] theorem loadMask_mask (flags : Byte) (s : State) : (loadMask flags s).mask = flags := rfl
@[simp] theorem loadMask_bits (flags : Byte) (s : State) : (loadMask flags s).bits = 8 := rfl
@[simp] theorem loadMask_outlen (flags : Byte) (s : State) : (loadMask flags s).outlen = s.outlen := rfl
@[simp] theorem loadMask_runState (flags : Byte) (s : State) : (loadMask flags s).runState = s.runState := rfl
@[simp] theorem loadMask_cause (flags : Byte) (s : State) : (loadMask flags s).cause = s.cause := rfl
@[simp] theorem loadMask_farg (flags : Byte) (s : State) : (loadMask flags s).farg = s.farg := rfl
@[simp] theorem loadMask_src (flags : Byte) (s : State) : (loadMask flags s).src = s.src := rfl
@[simp] theorem loadMask_rem (flags : Byte) (s : State) : (loadMask flags s).rem = s.rem := rfl
@[simp] theorem loadMask_p (flags : Byte) (s : State) : (loadMask flags s).p = s.p := rfl
@[simp] theorem loadMask_o (flags : Byte) (s : State) : (loadMask flags s).o = s.o := rfl
@[simp] theorem loadMask_schedule (flags : Byte) (s : State) : (loadMask flags s).schedule = s.schedule := rfl
@[simp] theorem loadMask_reply (flags : Byte) (s : State) : (loadMask flags s).reply = s.reply := rfl
@[simp] theorem loadMask_freeReads (flags : Byte) (s : State) : (loadMask flags s).freeReads = s.freeReads := rfl

end loadMask

section shiftFlag

@[simp] theorem shiftFlag_cfg (s : State) : (shiftFlag s).cfg = s.cfg := rfl
@[simp] theorem shiftFlag_len (s : State) : (shiftFlag s).len = s.len := rfl
@[simp] theorem shiftFlag_pos (s : State) : (shiftFlag s).pos = s.pos := rfl
@[simp] theorem shiftFlag_mask (s : State) : (shiftFlag s).mask = s.mask >>> 1 := rfl
@[simp] theorem shiftFlag_bits (s : State) : (shiftFlag s).bits = s.bits - 1#4 := rfl
@[simp] theorem shiftFlag_outlen (s : State) : (shiftFlag s).outlen = s.outlen := rfl
@[simp] theorem shiftFlag_runState (s : State) : (shiftFlag s).runState = s.runState := rfl
@[simp] theorem shiftFlag_cause (s : State) : (shiftFlag s).cause = s.cause := rfl
@[simp] theorem shiftFlag_farg (s : State) : (shiftFlag s).farg = s.farg := rfl
@[simp] theorem shiftFlag_src (s : State) : (shiftFlag s).src = s.src := rfl
@[simp] theorem shiftFlag_rem (s : State) : (shiftFlag s).rem = s.rem := rfl
@[simp] theorem shiftFlag_p (s : State) : (shiftFlag s).p = s.p := rfl
@[simp] theorem shiftFlag_o (s : State) : (shiftFlag s).o = s.o := rfl
@[simp] theorem shiftFlag_schedule (s : State) : (shiftFlag s).schedule = s.schedule := rfl
@[simp] theorem shiftFlag_reply (s : State) : (shiftFlag s).reply = s.reply := rfl
@[simp] theorem shiftFlag_freeReads (s : State) : (shiftFlag s).freeReads = s.freeReads := rfl

end shiftFlag

section endRun

@[simp] theorem endRun_cfg (s : State) : (endRun s).cfg = s.cfg := rfl
@[simp] theorem endRun_len (s : State) : (endRun s).len = s.len := rfl
@[simp] theorem endRun_pos (s : State) : (endRun s).pos = s.pos := rfl
@[simp] theorem endRun_mask (s : State) : (endRun s).mask = s.mask := rfl
@[simp] theorem endRun_bits (s : State) : (endRun s).bits = s.bits := rfl
@[simp] theorem endRun_outlen (s : State) : (endRun s).outlen = s.outlen := rfl
@[simp] theorem endRun_runState (s : State) : (endRun s).runState = .done := rfl
@[simp] theorem endRun_cause (s : State) : (endRun s).cause = s.cause := rfl
@[simp] theorem endRun_farg (s : State) : (endRun s).farg = s.farg := rfl
@[simp] theorem endRun_src (s : State) : (endRun s).src = s.src := rfl
@[simp] theorem endRun_rem (s : State) : (endRun s).rem = s.rem := rfl
@[simp] theorem endRun_p (s : State) : (endRun s).p = s.p := rfl
@[simp] theorem endRun_o (s : State) : (endRun s).o = s.o := rfl
@[simp] theorem endRun_schedule (s : State) : (endRun s).schedule = s.schedule := rfl
@[simp] theorem endRun_reply (s : State) : (endRun s).reply = s.reply := rfl
@[simp] theorem endRun_freeReads (s : State) : (endRun s).freeReads = s.freeReads := rfl

end endRun

section takeFault

@[simp] theorem takeFault_cfg (c : Cause) (w : BitVec 16) (s : State) : (takeFault c w s).cfg = s.cfg := rfl
@[simp] theorem takeFault_len (c : Cause) (w : BitVec 16) (s : State) : (takeFault c w s).len = s.len := rfl
@[simp] theorem takeFault_pos (c : Cause) (w : BitVec 16) (s : State) : (takeFault c w s).pos = s.pos := rfl
@[simp] theorem takeFault_mask (c : Cause) (w : BitVec 16) (s : State) : (takeFault c w s).mask = s.mask := rfl
@[simp] theorem takeFault_bits (c : Cause) (w : BitVec 16) (s : State) : (takeFault c w s).bits = s.bits := rfl
@[simp] theorem takeFault_outlen (c : Cause) (w : BitVec 16) (s : State) : (takeFault c w s).outlen = s.outlen := rfl
@[simp] theorem takeFault_runState (c : Cause) (w : BitVec 16) (s : State) : (takeFault c w s).runState = .fault := rfl
@[simp] theorem takeFault_cause (c : Cause) (w : BitVec 16) (s : State) : (takeFault c w s).cause = c := rfl
@[simp] theorem takeFault_farg (c : Cause) (w : BitVec 16) (s : State) : (takeFault c w s).farg = w := rfl
@[simp] theorem takeFault_src (c : Cause) (w : BitVec 16) (s : State) : (takeFault c w s).src = s.src := rfl
@[simp] theorem takeFault_rem (c : Cause) (w : BitVec 16) (s : State) : (takeFault c w s).rem = s.rem := rfl
@[simp] theorem takeFault_p (c : Cause) (w : BitVec 16) (s : State) : (takeFault c w s).p = s.p := rfl
@[simp] theorem takeFault_o (c : Cause) (w : BitVec 16) (s : State) : (takeFault c w s).o = s.o := rfl
@[simp] theorem takeFault_schedule (c : Cause) (w : BitVec 16) (s : State) : (takeFault c w s).schedule = s.schedule := rfl
@[simp] theorem takeFault_reply (c : Cause) (w : BitVec 16) (s : State) : (takeFault c w s).reply = s.reply := rfl
@[simp] theorem takeFault_freeReads (c : Cause) (w : BitVec 16) (s : State) : (takeFault c w s).freeReads = s.freeReads := rfl

end takeFault

section beginRun

@[simp] theorem beginRun_cfg (s : State) : (beginRun s).cfg = s.cfg := rfl
@[simp] theorem beginRun_len (s : State) : (beginRun s).len = s.len := rfl
@[simp] theorem beginRun_pos (s : State) : (beginRun s).pos = 0 := rfl
@[simp] theorem beginRun_mask (s : State) : (beginRun s).mask = 0 := rfl
@[simp] theorem beginRun_bits (s : State) : (beginRun s).bits = 0 := rfl
@[simp] theorem beginRun_outlen (s : State) : (beginRun s).outlen = 0 := rfl
@[simp] theorem beginRun_runState (s : State) : (beginRun s).runState = .run := rfl
@[simp] theorem beginRun_cause (s : State) : (beginRun s).cause = .none := rfl
@[simp] theorem beginRun_farg (s : State) : (beginRun s).farg = 0 := rfl
@[simp] theorem beginRun_src (s : State) : (beginRun s).src = s.src := rfl
@[simp] theorem beginRun_rem (s : State) : (beginRun s).rem = s.rem := rfl
@[simp] theorem beginRun_p (s : State) : (beginRun s).p = s.p := rfl
@[simp] theorem beginRun_o (s : State) : (beginRun s).o = [] := rfl
@[simp] theorem beginRun_schedule (s : State) : (beginRun s).schedule = s.schedule := rfl
@[simp] theorem beginRun_reply (s : State) : (beginRun s).reply = s.reply := rfl
@[simp] theorem beginRun_freeReads (s : State) : (beginRun s).freeReads = s.freeReads := rfl

end beginRun

section resetBlock

@[simp] theorem resetBlock_cfg (s : State) : (resetBlock s).cfg = s.cfg := rfl
@[simp] theorem resetBlock_len (s : State) : (resetBlock s).len = 0 := rfl
@[simp] theorem resetBlock_pos (s : State) : (resetBlock s).pos = 0 := rfl
@[simp] theorem resetBlock_mask (s : State) : (resetBlock s).mask = 0 := rfl
@[simp] theorem resetBlock_bits (s : State) : (resetBlock s).bits = 0 := rfl
@[simp] theorem resetBlock_outlen (s : State) : (resetBlock s).outlen = 0 := rfl
@[simp] theorem resetBlock_runState (s : State) : (resetBlock s).runState = .idle := rfl
@[simp] theorem resetBlock_cause (s : State) : (resetBlock s).cause = .none := rfl
@[simp] theorem resetBlock_farg (s : State) : (resetBlock s).farg = 0 := rfl
@[simp] theorem resetBlock_src (s : State) : (resetBlock s).src = 0 := rfl
@[simp] theorem resetBlock_rem (s : State) : (resetBlock s).rem = 0 := rfl
@[simp] theorem resetBlock_p (s : State) : (resetBlock s).p = [] := rfl
@[simp] theorem resetBlock_o (s : State) : (resetBlock s).o = [] := rfl
@[simp] theorem resetBlock_schedule (s : State) : (resetBlock s).schedule = s.schedule := rfl
@[simp] theorem resetBlock_reply (s : State) : (resetBlock s).reply = s.reply := rfl
@[simp] theorem resetBlock_freeReads (s : State) : (resetBlock s).freeReads = s.freeReads := rfl

end resetBlock

section writeP

@[simp] theorem writeP_cfg (a : Word) (b : Byte) (s : State) : (writeP a b s).cfg = s.cfg := rfl
@[simp] theorem writeP_len (a : Word) (b : Byte) (s : State) : (writeP a b s).len = s.len := rfl
@[simp] theorem writeP_pos (a : Word) (b : Byte) (s : State) : (writeP a b s).pos = s.pos := rfl
@[simp] theorem writeP_mask (a : Word) (b : Byte) (s : State) : (writeP a b s).mask = s.mask := rfl
@[simp] theorem writeP_bits (a : Word) (b : Byte) (s : State) : (writeP a b s).bits = s.bits := rfl
@[simp] theorem writeP_outlen (a : Word) (b : Byte) (s : State) : (writeP a b s).outlen = s.outlen := rfl
@[simp] theorem writeP_runState (a : Word) (b : Byte) (s : State) : (writeP a b s).runState = s.runState := rfl
@[simp] theorem writeP_cause (a : Word) (b : Byte) (s : State) : (writeP a b s).cause = s.cause := rfl
@[simp] theorem writeP_farg (a : Word) (b : Byte) (s : State) : (writeP a b s).farg = s.farg := rfl
@[simp] theorem writeP_src (a : Word) (b : Byte) (s : State) : (writeP a b s).src = s.src := rfl
@[simp] theorem writeP_rem (a : Word) (b : Byte) (s : State) : (writeP a b s).rem = s.rem := rfl
@[simp] theorem writeP_p (a : Word) (b : Byte) (s : State) : (writeP a b s).p = s.p.write a.toNat b := rfl
@[simp] theorem writeP_o (a : Word) (b : Byte) (s : State) : (writeP a b s).o = s.o := rfl
@[simp] theorem writeP_schedule (a : Word) (b : Byte) (s : State) : (writeP a b s).schedule = s.schedule := rfl
@[simp] theorem writeP_reply (a : Word) (b : Byte) (s : State) : (writeP a b s).reply = s.reply := rfl
@[simp] theorem writeP_freeReads (a : Word) (b : Byte) (s : State) : (writeP a b s).freeReads = s.freeReads := rfl

end writeP

section setReply

@[simp] theorem setReply_cfg (r : Reply) (s : State) : (setReply r s).cfg = s.cfg := rfl
@[simp] theorem setReply_len (r : Reply) (s : State) : (setReply r s).len = s.len := rfl
@[simp] theorem setReply_pos (r : Reply) (s : State) : (setReply r s).pos = s.pos := rfl
@[simp] theorem setReply_mask (r : Reply) (s : State) : (setReply r s).mask = s.mask := rfl
@[simp] theorem setReply_bits (r : Reply) (s : State) : (setReply r s).bits = s.bits := rfl
@[simp] theorem setReply_outlen (r : Reply) (s : State) : (setReply r s).outlen = s.outlen := rfl
@[simp] theorem setReply_runState (r : Reply) (s : State) : (setReply r s).runState = s.runState := rfl
@[simp] theorem setReply_cause (r : Reply) (s : State) : (setReply r s).cause = s.cause := rfl
@[simp] theorem setReply_farg (r : Reply) (s : State) : (setReply r s).farg = s.farg := rfl
@[simp] theorem setReply_src (r : Reply) (s : State) : (setReply r s).src = s.src := rfl
@[simp] theorem setReply_rem (r : Reply) (s : State) : (setReply r s).rem = s.rem := rfl
@[simp] theorem setReply_p (r : Reply) (s : State) : (setReply r s).p = s.p := rfl
@[simp] theorem setReply_o (r : Reply) (s : State) : (setReply r s).o = s.o := rfl
@[simp] theorem setReply_schedule (r : Reply) (s : State) : (setReply r s).schedule = s.schedule := rfl
@[simp] theorem setReply_reply (r : Reply) (s : State) : (setReply r s).reply = some r := rfl
@[simp] theorem setReply_freeReads (r : Reply) (s : State) : (setReply r s).freeReads = s.freeReads := rfl

end setReply

section takeFree

@[simp] theorem takeFree_cfg (s : State) : (takeFree s).cfg = s.cfg := rfl
@[simp] theorem takeFree_len (s : State) : (takeFree s).len = s.len := rfl
@[simp] theorem takeFree_pos (s : State) : (takeFree s).pos = s.pos := rfl
@[simp] theorem takeFree_mask (s : State) : (takeFree s).mask = s.mask := rfl
@[simp] theorem takeFree_bits (s : State) : (takeFree s).bits = s.bits := rfl
@[simp] theorem takeFree_outlen (s : State) : (takeFree s).outlen = s.outlen := rfl
@[simp] theorem takeFree_runState (s : State) : (takeFree s).runState = s.runState := rfl
@[simp] theorem takeFree_cause (s : State) : (takeFree s).cause = s.cause := rfl
@[simp] theorem takeFree_farg (s : State) : (takeFree s).farg = s.farg := rfl
@[simp] theorem takeFree_src (s : State) : (takeFree s).src = s.src := rfl
@[simp] theorem takeFree_rem (s : State) : (takeFree s).rem = s.rem := rfl
@[simp] theorem takeFree_p (s : State) : (takeFree s).p = s.p := rfl
@[simp] theorem takeFree_o (s : State) : (takeFree s).o = s.o := rfl
@[simp] theorem takeFree_schedule (s : State) : (takeFree s).schedule = s.schedule := rfl
@[simp] theorem takeFree_reply (s : State) : (takeFree s).reply = s.reply := rfl
@[simp] theorem takeFree_freeReads (s : State) : (takeFree s).freeReads = s.freeReads + 1 := rfl

end takeFree

section popTurn

@[simp] theorem popTurn_cfg (s : State) : s.popTurn.cfg = s.cfg := rfl
@[simp] theorem popTurn_len (s : State) : s.popTurn.len = s.len := rfl
@[simp] theorem popTurn_pos (s : State) : s.popTurn.pos = s.pos := rfl
@[simp] theorem popTurn_mask (s : State) : s.popTurn.mask = s.mask := rfl
@[simp] theorem popTurn_bits (s : State) : s.popTurn.bits = s.bits := rfl
@[simp] theorem popTurn_outlen (s : State) : s.popTurn.outlen = s.outlen := rfl
@[simp] theorem popTurn_runState (s : State) : s.popTurn.runState = s.runState := rfl
@[simp] theorem popTurn_cause (s : State) : s.popTurn.cause = s.cause := rfl
@[simp] theorem popTurn_farg (s : State) : s.popTurn.farg = s.farg := rfl
@[simp] theorem popTurn_src (s : State) : s.popTurn.src = s.src := rfl
@[simp] theorem popTurn_rem (s : State) : s.popTurn.rem = s.rem := rfl
@[simp] theorem popTurn_p (s : State) : s.popTurn.p = s.p := rfl
@[simp] theorem popTurn_o (s : State) : s.popTurn.o = s.o := rfl
@[simp] theorem popTurn_schedule (s : State) : s.popTurn.schedule = s.schedule.tail := rfl
@[simp] theorem popTurn_reply (s : State) : s.popTurn.reply = s.reply := rfl
@[simp] theorem popTurn_freeReads (s : State) : s.popTurn.freeReads = s.freeReads := rfl

end popTurn

section afterToken

@[simp] theorem afterToken_cfg (s : State) : (afterToken s).cfg = s.cfg := by
  unfold afterToken; split <;> rfl
@[simp] theorem afterToken_len (s : State) : (afterToken s).len = s.len := by
  unfold afterToken; split <;> rfl
@[simp] theorem afterToken_pos (s : State) : (afterToken s).pos = s.pos := by
  unfold afterToken; split <;> rfl
theorem afterToken_mask (s : State) :
    (afterToken s).mask = if s.pos = s.len then s.mask else s.mask >>> 1 := by
  simp only [afterToken, curAtEnd, beq_iff_eq]; split <;> rfl
theorem afterToken_bits (s : State) :
    (afterToken s).bits = if s.pos = s.len then s.bits else s.bits - 1#4 := by
  simp only [afterToken, curAtEnd, beq_iff_eq]; split <;> rfl
@[simp] theorem afterToken_outlen (s : State) : (afterToken s).outlen = s.outlen := by
  unfold afterToken; split <;> rfl
theorem afterToken_runState (s : State) :
    (afterToken s).runState = if s.pos = s.len then .done else s.runState := by
  simp only [afterToken, curAtEnd, beq_iff_eq]; split <;> rfl
@[simp] theorem afterToken_cause (s : State) : (afterToken s).cause = s.cause := by
  unfold afterToken; split <;> rfl
@[simp] theorem afterToken_farg (s : State) : (afterToken s).farg = s.farg := by
  unfold afterToken; split <;> rfl
@[simp] theorem afterToken_src (s : State) : (afterToken s).src = s.src := by
  unfold afterToken; split <;> rfl
@[simp] theorem afterToken_rem (s : State) : (afterToken s).rem = s.rem := by
  unfold afterToken; split <;> rfl
@[simp] theorem afterToken_p (s : State) : (afterToken s).p = s.p := by
  unfold afterToken; split <;> rfl
@[simp] theorem afterToken_o (s : State) : (afterToken s).o = s.o := by
  unfold afterToken; split <;> rfl
@[simp] theorem afterToken_schedule (s : State) : (afterToken s).schedule = s.schedule := by
  unfold afterToken; split <;> rfl
@[simp] theorem afterToken_reply (s : State) : (afterToken s).reply = s.reply := by
  unfold afterToken; split <;> rfl
@[simp] theorem afterToken_freeReads (s : State) : (afterToken s).freeReads = s.freeReads := by
  unfold afterToken; split <;> rfl

end afterToken

section writeLen

@[simp] theorem writeLen_cfg (v : Word) (s : State) : (writeLen v s).cfg = s.cfg := by
  unfold writeLen; split <;> rfl
theorem writeLen_len (v : Word) (s : State) :
    (writeLen v s).len = if busy s then s.len else v := by
  unfold writeLen; split <;> rfl
@[simp] theorem writeLen_pos (v : Word) (s : State) : (writeLen v s).pos = s.pos := by
  unfold writeLen; split <;> rfl
@[simp] theorem writeLen_mask (v : Word) (s : State) : (writeLen v s).mask = s.mask := by
  unfold writeLen; split <;> rfl
@[simp] theorem writeLen_bits (v : Word) (s : State) : (writeLen v s).bits = s.bits := by
  unfold writeLen; split <;> rfl
@[simp] theorem writeLen_outlen (v : Word) (s : State) : (writeLen v s).outlen = s.outlen := by
  unfold writeLen; split <;> rfl
@[simp] theorem writeLen_runState (v : Word) (s : State) : (writeLen v s).runState = s.runState := by
  unfold writeLen; split <;> rfl
@[simp] theorem writeLen_cause (v : Word) (s : State) : (writeLen v s).cause = s.cause := by
  unfold writeLen; split <;> rfl
@[simp] theorem writeLen_farg (v : Word) (s : State) : (writeLen v s).farg = s.farg := by
  unfold writeLen; split <;> rfl
@[simp] theorem writeLen_src (v : Word) (s : State) : (writeLen v s).src = s.src := by
  unfold writeLen; split <;> rfl
@[simp] theorem writeLen_rem (v : Word) (s : State) : (writeLen v s).rem = s.rem := by
  unfold writeLen; split <;> rfl
@[simp] theorem writeLen_p (v : Word) (s : State) : (writeLen v s).p = s.p := by
  unfold writeLen; split <;> rfl
@[simp] theorem writeLen_o (v : Word) (s : State) : (writeLen v s).o = s.o := by
  unfold writeLen; split <;> rfl
@[simp] theorem writeLen_schedule (v : Word) (s : State) : (writeLen v s).schedule = s.schedule := by
  unfold writeLen; split <;> rfl
@[simp] theorem writeLen_reply (v : Word) (s : State) : (writeLen v s).reply = s.reply := by
  unfold writeLen; split <;> rfl
@[simp] theorem writeLen_freeReads (v : Word) (s : State) : (writeLen v s).freeReads = s.freeReads := by
  unfold writeLen; split <;> rfl

end writeLen

end Sys2Proof.Machine
end

