-- ==== Sys2Proof/Laws/Memory.lean ====
section
/-! SUPPORT. The laws of a memory space: read after write, canonical form kept, and appending at the end
of a memory that is listed without gaps. -/

namespace Sys2Proof.Machine

@[simp] theorem Memory.read_nil (x : Nat) : Memory.read [] x = none := rfl

theorem Memory.read_write_same (m : Memory) (x : Nat) (v : Byte) :
    (Memory.write m x v).read x = some v := by
  induction m with
  | nil => simp [Memory.write, Memory.read]
  | cons c rest ih =>
    obtain ⟨a, b⟩ := c
    unfold Memory.write
    split
    · simp [Memory.read]
    · split
      · simp [Memory.read]
      · rename_i _ hne
        simp [Memory.read, Ne.symm hne, ih]

theorem Memory.read_write_other (m : Memory) {x y : Nat} (v : Byte) (h : y ≠ x) :
    (Memory.write m x v).read y = m.read y := by
  induction m with
  | nil => simp [Memory.write, Memory.read, Ne.symm h]
  | cons c rest ih =>
    obtain ⟨a, b⟩ := c
    unfold Memory.write
    split
    · simp [Memory.read, Ne.symm h]
    · split
      · rename_i _ hx
        subst hx
        simp [Memory.read, Ne.symm h]
      · by_cases hy : a = y
        · simp [Memory.read, hy]
        · simp [Memory.read, hy, ih]

theorem Memory.read_write (m : Memory) (x y : Nat) (v : Byte) :
    (Memory.write m x v).read y = if y = x then some v else m.read y := by
  split
  · next h => rw [h, Memory.read_write_same]
  · next h => rw [Memory.read_write_other m v h]

theorem Memory.mem_write {m : Memory} {x y : Nat} {v : Byte}
    (h : y ∈ (Memory.write m x v).map Prod.fst) : y = x ∨ y ∈ m.map Prod.fst := by
  induction m with
  | nil => simpa [Memory.write] using h
  | cons c rest ih =>
    obtain ⟨a, b⟩ := c
    unfold Memory.write at h
    split at h
    · simpa using h
    · split at h
      · simp at h ⊢; tauto
      · simp only [List.map_cons, List.mem_cons] at h ⊢
        rcases h with h | h
        · exact .inr (.inl h)
        · exact (ih h).imp id .inr

/-- Every write keeps the canonical form. -/
theorem Memory.wf_write {m : Memory} (h : m.wf) (x : Nat) (v : Byte) : (Memory.write m x v).wf := by
  induction m with
  | nil => simp [Memory.write, Memory.wf]
  | cons c rest ih =>
    obtain ⟨a, b⟩ := c
    have hp := List.pairwise_cons.mp h
    unfold Memory.write
    split
    · next hx =>
      refine List.pairwise_cons.mpr ⟨fun y hy => ?_, h⟩
      rcases List.mem_cons.mp hy with rfl | hy
      · exact hx
      · exact lt_trans hx (hp.1 y hy)
    · split
      · next hx => subst hx; exact h
      · next hlt hne =>
        refine List.pairwise_cons.mpr ⟨fun y hy => ?_, ih hp.2⟩
        rcases Memory.mem_write hy with rfl | hy
        · show a < y; omega
        · exact hp.1 y hy

theorem Memory.wf_nil : Memory.wf [] := List.Pairwise.nil

theorem Memory.read_isSome_iff (m : Memory) (x : Nat) :
    (m.read x).isSome ↔ x ∈ m.map Prod.fst := by
  induction m with
  | nil => simp
  | cons c rest ih =>
    obtain ⟨a, b⟩ := c
    by_cases h : a = x
    · simp [Memory.read, h]
    · simpa [Memory.read, h, Ne.symm h] using ih

/-- A write at an address beyond all listed ones lists it last. -/
theorem Memory.write_append {m : Memory} {x : Nat} (v : Byte)
    (h : ∀ y ∈ m.map Prod.fst, y < x) : Memory.write m x v = m ++ [(x, v)] := by
  induction m with
  | nil => rfl
  | cons c rest ih =>
    obtain ⟨a, b⟩ := c
    have ha : a < x := h a (by simp)
    have hr := ih fun y hy => h y (by simp only [List.map_cons, List.mem_cons]; exact .inr hy)
    unfold Memory.write
    rw [if_neg (by omega), if_neg (by omega), hr]
    rfl

end Sys2Proof.Machine
end

