-- ==== Sys2Proof/Laws/Ops.lean ====
section
/-! SUPPORT. One law per shared operation: what the selection test says, what the append and the copy
loop do to O and what they leave alone, and when the copy loop succeeds. -/

namespace Sys2Proof.Machine

/-! ### Selection -/

theorem selected_iff (k : ItemKind) (s : State) :
    selected k s = true ↔ s.runState = .run ∧ s.pos < s.len ∧ selectedKind s = k := by
  simp [selected, and_assoc]

theorem selectedKind_mask {s : State} (h : s.bits = 0) : selectedKind s = .mask := by
  simp [selectedKind, h]

theorem selectedKind_lit {s : State} (h : 0 < s.bits) (hf : s.mask.getLsbD 0 = true) :
    selectedKind s = .lit := by
  have : s.bits ≠ 0 := by rintro h0; simp [h0] at h
  rw [selectedKind, if_neg this, nextFlag, hf]; rfl

theorem selectedKind_copy {s : State} (h : 0 < s.bits) (hf : s.mask.getLsbD 0 = false) :
    selectedKind s = .copy := by
  have : s.bits ≠ 0 := by rintro h0; simp [h0] at h
  rw [selectedKind, if_neg this, nextFlag, hf]; rfl

theorem pos_lt_of_remaining {s : State} {k : Nat} (h : k + 1 ≤ curRemaining s) : s.pos < s.len := by
  rw [BitVec.lt_def]; unfold curRemaining at h; omega

theorem readO_eq {a : Nat} {s : State} (h : a < s.outlen.toNat) : readO a s = s.o.read a := by
  simp [readO, h]

/-! ### Append and the copy loop -/

theorem copyByte_eq (b : Byte) (s : State) :
    copyByte b s = { s with o := s.o.write s.outlen.toNat b, outlen := s.outlen + 1#32,
                            src := s.src + 1#33, rem := s.rem - 1#5 } := rfl

theorem outlen_add_one {s : State} (h : s.outlen.toNat + 1 < 2 ^ 32) :
    (s.outlen + 1#32).toNat = s.outlen.toNat + 1 := by
  simp [BitVec.toNat_add]; omega

theorem src_add_one {s : State} (h : s.src.toNat + 1 < 2 ^ 33) :
    (s.src + 1#33).toNat = s.src.toNat + 1 := by
  simp [BitVec.toNat_add]; omega

/-- What the copy loop changes when it succeeds: O, OUTLEN, SRC and REM, and nothing else. -/
theorem copyLoop_only {k : Nat} {s t : State} (h : copyLoop k s = .ok t) :
    t = { s with o := t.o, outlen := t.outlen, src := t.src, rem := t.rem } := by
  induction k generalizing s with
  | zero => cases h; rfl
  | succ k ih =>
    unfold copyLoop at h
    split at h
    · cases h
    · have := ih h
      exact this

/-- The copy loop appends k bytes: OUTLEN grows by k, and every byte of O outside the k appended ones is
as before. -/
theorem copyLoop_appends {k : Nat} {s t : State} (h : copyLoop k s = .ok t)
    (hw : s.outlen.toNat + k < 2 ^ 32) :
    t.outlen.toNat = s.outlen.toNat + k ∧
      ∀ a, a < s.outlen.toNat ∨ s.outlen.toNat + k ≤ a → t.o.read a = s.o.read a := by
  induction k generalizing s with
  | zero => cases h; simp
  | succ k ih =>
    unfold copyLoop at h
    split at h
    · cases h
    · have h1 := outlen_add_one (s := s) (by omega)
      obtain ⟨hl, hr⟩ := ih h (by simp only [copyByte_outlen]; omega)
      simp only [copyByte_outlen, copyByte_o] at hl hr
      refine ⟨by omega, fun a ha => ?_⟩
      rw [hr a (by omega), Memory.read_write_other _ _ (by omega)]

/-- Each byte the copy loop appends is the byte of the output, as the loop leaves it, that lies as far
back as SRC lay behind the end at the start: the ordered byte-at-a-time copy (R144). -/
theorem copyLoop_copies {k : Nat} {s t : State} (h : copyLoop k s = .ok t)
    (hw : s.outlen.toNat + k < 2 ^ 32) (hs : s.src.toNat < s.outlen.toNat) :
    ∀ i < k, t.o.read (s.outlen.toNat + i) = t.o.read (s.src.toNat + i) := by
  induction k generalizing s with
  | zero => intro i hi; omega
  | succ k ih =>
    unfold copyLoop at h
    split at h
    · cases h
    · next b hb =>
      have h1 := outlen_add_one (s := s) (by omega)
      have h2 := src_add_one (s := s) (by omega)
      have hk : (copyByte b s).outlen.toNat + k < 2 ^ 32 := by
        simp only [copyByte_outlen]; omega
      have hks : (copyByte b s).src.toNat < (copyByte b s).outlen.toNat := by
        simp only [copyByte_outlen, copyByte_src]; omega
      obtain ⟨_, hr⟩ := copyLoop_appends h hk
      have hc := ih h hk hks
      simp only [copyByte_outlen, copyByte_src, copyByte_o] at hr hc
      intro i hi
      rcases i with _ | i
      · rw [readO_eq hs] at hb
        rw [Nat.add_zero, Nat.add_zero, hr _ (by omega), Memory.read_write_same, hr _ (by omega),
          Memory.read_write_other _ _ (by omega), hb]
      · have := hc i (by omega)
        rw [h1, h2] at this
        rw [show s.outlen.toNat + (i + 1) = s.outlen.toNat + 1 + i by omega,
          show s.src.toNat + (i + 1) = s.src.toNat + 1 + i by omega, this]

/-- The copy loop succeeds when SRC lies below OUTLEN and O holds every byte below OUTLEN (R53). -/
theorem copyLoop_succeeds {k : Nat} {s : State} (hw : s.outlen.toNat + k < 2 ^ 32)
    (hs : s.src.toNat < s.outlen.toNat) (ho : ∀ a < s.outlen.toNat, (s.o.read a).isSome) :
    ∃ t, copyLoop k s = .ok t := by
  induction k generalizing s with
  | zero => exact ⟨s, rfl⟩
  | succ k ih =>
    obtain ⟨b, hb⟩ := Option.isSome_iff_exists.mp (ho _ hs)
    have h1 := outlen_add_one (s := s) (by omega)
    have h2 := src_add_one (s := s) (by omega)
    unfold copyLoop
    rw [readO_eq hs, hb]
    refine ih (s := copyByte b s) ?_ ?_ ?_
    · simp only [copyByte_outlen]; omega
    · simp only [copyByte_outlen, copyByte_src]; omega
    · intro a ha
      simp only [copyByte_outlen, copyByte_o] at ha ⊢
      rw [Memory.read_write]
      split
      · rfl
      · exact ho a (by omega)

/-- Loading the copy unit with a resolved position puts it at that position. -/
theorem copyStart_src_toNat {p : Int} {n : BitVec 5} {s : State} (h0 : 0 ≤ p)
    (h1 : p < s.outlen.toNat) : (copyStart p n s).src.toNat = p.toNat := by
  have := s.outlen.isLt
  simp only [copyStart_src, BitVec.toNat_ofInt]
  norm_num
  omega

/-! ### The after-token rule -/

theorem afterToken_at_end {s : State} (h : s.pos = s.len) : afterToken s = endRun s := by
  simp [afterToken, curAtEnd, h]

theorem afterToken_inside {s : State} (h : s.pos ≠ s.len) : afterToken s = shiftFlag s := by
  simp [afterToken, curAtEnd, h]

theorem afterToken_endedOrShifted {s t : State} (hr : t.runState = .run) (hl : t.len = s.len)
    (hm : t.mask = s.mask) (hb : t.bits = s.bits) : EndedOrShifted s (afterToken t) := by
  constructor
  · intro h
    rw [afterToken_pos, ← hl] at h
    rw [afterToken_runState, afterToken_mask, afterToken_bits]
    simp [h, hm, hb]
  · intro h
    rw [afterToken_pos, ← hl] at h
    rw [afterToken_runState, afterToken_mask, afterToken_bits]
    simp [h, hm, hb, hr]

end Sys2Proof.Machine
end

