-- ==== Sys2Proof/Laws/Engine.lean ====
section
/-! SUPPORT. Inversion laws, once per shared operation: what an item's meaning, the engine's turn, a host
event and a step can answer. Later proofs cite these instead of unfolding the machine. -/

namespace Sys2Proof.Machine

/-- A token that raised no fault consumed k payload bytes and appended n output bytes between s and u:
only O, OUTLEN, SRC and REM differ, the capacity holds, and O is as before outside the appended bytes. -/
structure Appended (k n : Nat) (s u : State) : Prop where
  width : k = 1 ∧ n = 1 ∨ k = 2 ∧ 3 ≤ n ∧ n ≤ 18
  inside : k ≤ curRemaining s
  only : u = { s with o := u.o, outlen := u.outlen, src := u.src, rem := u.rem }
  outlen : u.outlen.toNat = s.outlen.toNat + n
  capacity : s.outlen.toNat + n ≤ s.cfg.outCap.toNat
  frame : ∀ a, a < s.outlen.toNat ∨ s.outlen.toNat + n ≤ a → u.o.read a = s.o.read a
  held : OutputHeld s → OutputHeld u

theorem outputHeld_append {b : Byte} {s : State} (h : OutputHeld s)
    (hw : s.outlen.toNat + 1 < 2 ^ 32) : OutputHeld (appendByte b s) := by
  have hlt : ∀ y ∈ s.o.map Prod.fst, y < s.outlen.toNat := by
    rw [h]; simp
  show (s.o.write s.outlen.toNat b).map Prod.fst = List.range (s.outlen + 1#32).toNat
  rw [Memory.write_append b hlt, outlen_add_one hw, List.range_succ, List.map_append, h]
  rfl

theorem copyLoop_held {k : Nat} {s t : State} (h : copyLoop k s = .ok t)
    (hw : s.outlen.toNat + k < 2 ^ 32) (ho : OutputHeld s) : OutputHeld t := by
  induction k generalizing s with
  | zero => cases h; exact ho
  | succ k ih =>
    unfold copyLoop at h
    split at h
    · cases h
    · next b _ =>
      have h1 := outlen_add_one (s := s) (by omega)
      refine ih h (by simp only [copyByte_outlen]; omega) ?_
      exact outputHeld_append (b := b) ho (by omega)

theorem exceedsCap_iff {n : Nat} {s : State} :
    exceedsCap n s = true ↔ s.cfg.outCap.toNat < s.outlen.toNat + n := by
  simp [exceedsCap]

theorem matchLength_range (m : BitVec 4) :
    3 ≤ (matchLength m).toNat ∧ (matchLength m).toNat ≤ 18 := by
  have := m.isLt
  rw [matchLength_toNat]; omega

theorem copyGood_next {p : Int} {n : BitVec 5} {s t : State} (hn : 3 ≤ n.toNat ∧ n.toNat ≤ 18) (hr : 2 ≤ curRemaining s)
    (hc : s.outlen.toNat + n.toNat ≤ s.cfg.outCap.toNat) (h : copyGood p n s = .next t) :
    ∃ u, Appended 2 n.toNat s u ∧ t = afterToken (curAdvance 2#32 u) := by
  unfold copyGood copyUnit at h
  split at h
  · cases h
  · next u hu =>
    cases h
    have hcap := s.cfg.outCap.isLt
    have hw : (copyStart p n s).outlen.toNat + n.toNat < 2 ^ 32 := by
      simp only [copyStart_outlen]; omega
    obtain ⟨hl, hf⟩ := copyLoop_appends hu hw
    have honly := copyLoop_only hu
    refine ⟨u, ⟨.inr ⟨rfl, hn⟩, hr, ?_, ?_, hc, ?_, ?_⟩, rfl⟩
    · exact honly
    · simpa using hl
    · simpa using hf
    · intro ho
      exact copyLoop_held hu hw ho

theorem copyToken_next {f : BitVec 12} {m : BitVec 4} {s t : State}
    (h : copyToken f m s = .next t) :
    s.runState = .run ∧ s.pos < s.len ∧ selectedKind s = .copy ∧
      ((∃ c w, c ≠ .none ∧ t = takeFault c w s) ∨
        ∃ u, Appended 2 (m.toNat + 3) s u ∧ t = afterToken (curAdvance 2#32 u)) := by
  unfold copyToken at h
  split at h
  case isFalse => cases h
  case isTrue hs =>
    obtain ⟨h1, h2, h3⟩ := (selected_iff _ _).mp hs
    refine ⟨h1, h2, h3, ?_⟩
    split at h
    · cases h; exact .inl ⟨_, _, by decide, rfl⟩
    · split at h
      · cases h; exact .inl ⟨_, _, by decide, rfl⟩
      · next p _ =>
        split at h
        · cases h; exact .inl ⟨_, _, by decide, rfl⟩
        · next hrem hcap =>
          rw [exceedsCap_iff] at hcap
          obtain ⟨u, hu, ht⟩ := copyGood_next (matchLength_range m) (by omega) (by omega) h
          rw [matchLength_toNat] at hu
          exact .inr ⟨u, hu, ht⟩

theorem execLit_next {v : Byte} {s t : State} (h : execLit v s = .next t) :
    s.runState = .run ∧ s.pos < s.len ∧ selectedKind s = .lit ∧
      ((∃ c w, c ≠ .none ∧ t = takeFault c w s) ∨
        ∃ u, Appended 1 1 s u ∧ u.src = s.src ∧ u.rem = s.rem ∧
          t = afterToken (curAdvance 1#32 u)) := by
  unfold execLit at h
  split at h
  case isFalse => cases h
  case isTrue hs =>
    obtain ⟨h1, h2, h3⟩ := (selected_iff _ _).mp hs
    refine ⟨h1, h2, h3, ?_⟩
    split at h
    · cases h; exact .inl ⟨_, _, by decide, rfl⟩
    · next hcap =>
      cases h
      rw [exceedsCap_iff] at hcap
      have hlt := s.cfg.outCap.isLt
      have hlen := outlen_add_one (s := s) (by omega)
      refine .inr ⟨appendByte v s, ⟨.inl ⟨rfl, rfl⟩, ?_, rfl, ?_, by omega, ?_, ?_⟩, rfl, rfl, rfl⟩
      · rw [BitVec.lt_def] at h2; unfold curRemaining; omega
      · simpa using hlen
      · intro a ha
        exact Memory.read_write_other _ _ (by omega)
      · intro ho
        exact outputHeld_append ho (by omega)

/-- What a payload item can answer as a next state: only in RUN with POS < LEN; a fault record and nothing
else; the mask fetch; or appended bytes, the cursor moved on, and the after-token rule. -/
theorem item_next {i : Instr} {s t : State} (hi : isItem i = true) (h : exec i s = .next t) :
    s.runState = .run ∧ s.pos < s.len ∧
      ((∃ c w, c ≠ .none ∧ t = takeFault c w s) ∨
        (s.bits = 0 ∧ appendedBytes i = 0 ∧ ∃ flags, t = loadMask flags (curAdvance 1#32 s)) ∨
        (s.bits ≠ 0 ∧ ∃ k u, Appended k (appendedBytes i) s u ∧
          t = afterToken (curAdvance (BitVec.ofNat 32 k) u))) := by
  have hbits : selectedKind s ≠ .mask → s.bits ≠ 0 := fun hk h0 => hk (selectedKind_mask h0)
  cases i with
  | mask flags =>
    change execMask flags s = _ at h
    unfold execMask at h
    split at h
    case isFalse => cases h
    case isTrue hs =>
      cases h
      obtain ⟨h1, h2, h3⟩ := (selected_iff _ _).mp hs
      refine ⟨h1, h2, .inr (.inl ⟨?_, rfl, flags, rfl⟩)⟩
      unfold selectedKind at h3
      split at h3
      · assumption
      · split at h3 <;> cases h3
  | lit v =>
    obtain ⟨h1, h2, h3, hc | ⟨u, hu, _, _, ht⟩⟩ := execLit_next h
    · exact ⟨h1, h2, .inl hc⟩
    · exact ⟨h1, h2, .inr (.inr ⟨hbits (by simp [h3]), 1, u, hu, ht⟩)⟩
  | copy f m =>
    obtain ⟨h1, h2, h3, hc | ⟨u, hu, ht⟩⟩ := copyToken_next h
    · exact ⟨h1, h2, .inl hc⟩
    · exact ⟨h1, h2, .inr (.inr ⟨hbits (by simp [h3]), 2, u, hu, ht⟩)⟩
  | copyD d m =>
    obtain ⟨h1, h2, h3, hc | ⟨u, hu, ht⟩⟩ := copyToken_next h
    · exact ⟨h1, h2, .inl hc⟩
    · exact ⟨h1, h2, .inr (.inr ⟨hbits (by simp [h3]), 2, u, hu, ht⟩)⟩
  | start => cases hi
  | rst => cases hi

/-! ### The engine -/

theorem curByte_zero_ok {s : State} {b : Byte} (h : curByte 0 s = .ok b) :
    s.pos < s.len ∧ s.p.read s.pos.toNat = some b := by
  unfold curByte at h
  split at h
  · next hlt =>
    split at h
    · next b' hb => cases h; exact ⟨by rw [BitVec.lt_def]; simpa using hlt, by simpa using hb⟩
    · cases h
  · cases h

/-- The fetch by its bytes: the one at POS, and for a copy with two bytes left the one after it. -/
theorem fetchBytes_eq (s : State) :
    fetchBytes s =
      match curByte 0 s with
      | .error e => .error e
      | .ok b0 =>
        if selectedKind s = .copy ∧ 2 ≤ curRemaining s then
          match curByte 1 s with
          | .error e => .error e
          | .ok b1 => .ok [b0, b1]
        else .ok [b0] := by
  unfold fetchBytes curNext1 curNext2
  split <;> cases curByte 0 s <;> cases curByte 1 s <;> simp_all

/-- What the engine's turn can answer as a next state: nothing outside RUN; END at the end of the payload;
a cut copy's fault; or what an item that the dispatcher selected answers. -/
theorem engineTurn_next {s t : State} (h : engineTurn s = .next t) :
    (s.runState ≠ .run ∧ t = s) ∨
      (s.runState = .run ∧ s.pos = s.len ∧ t = endRun s) ∨
      (s.runState = .run ∧ s.pos < s.len ∧ selectedKind s = .copy ∧
        ∃ w, curPeekToken true s = .ok w ∧ t = takeFault .truncatedCopy w s) ∨
      (s.runState = .run ∧ ∃ i bytes, isItem i = true ∧ fetchBytes s = .ok bytes ∧
        decode (.payload (selectedKind s) bytes) = .ok (i, []) ∧ exec i s = .next t) := by
  unfold engineTurn at h
  split at h
  case isFalse hb =>
    cases h
    exact .inl ⟨by simpa [busy] using hb, rfl⟩
  case isTrue hb =>
    have hrun : s.runState = .run := by simpa [busy] using hb
    refine .inr ?_
    unfold engineStep at h
    split at h
    · next he =>
      cases h
      exact .inl ⟨hrun, by simpa [curAtEnd] using he, rfl⟩
    · refine .inr ?_
      split at h
      · cases h
      · next bytes hf =>
        have hfetch := hf
        rw [fetchBytes_eq] at hf
        split at hf
        · cases hf
        · next b0 hb0 =>
          obtain ⟨hlt, _⟩ := curByte_zero_ok hb0
          unfold runBytes at h
          split at hf
          · next hk =>
            split at hf
            · cases hf
            · cases hf
              rw [hk.1] at h
              exact .inr ⟨hrun, _, _, rfl, hfetch, by rw [hk.1]; rfl, h⟩
          · cases hf
            cases hk : selectedKind s with
            | mask =>
              rw [hk] at h
              exact .inr ⟨hrun, _, _, rfl, hfetch, rfl, h⟩
            | lit =>
              rw [hk] at h
              exact .inr ⟨hrun, _, _, rfl, hfetch, rfl, h⟩
            | copy =>
              rw [hk] at h
              change truncatedFault s = _ at h
              unfold truncatedFault at h
              split at h
              · cases h
              · next w hw =>
                cases h
                exact .inl ⟨hrun, hlt, rfl, w, hw, rfl⟩

/-- The cursor moved on by the k bytes a token has left: no 32-bit wrap, and still within LEN. -/
theorem curAdvance_toNat {s : State} {k : Nat} (h : k ≤ curRemaining s) (hk : k = 1 ∨ k = 2) :
    (s.pos + BitVec.ofNat 32 k).toNat = s.pos.toNat + k ∧ s.pos.toNat + k ≤ s.len.toNat := by
  unfold curRemaining at h
  have := s.len.isLt
  rcases hk with rfl | rfl
  all_goals
  rw [BitVec.toNat_add, BitVec.toNat_ofNat]; omega

/-- Everything the engine's turn can answer as a next state, by its effect on the state. -/
theorem engineTurn_cases {s t : State} (h : engineTurn s = .next t) :
    (s.runState ≠ .run ∧ t = s) ∨ (s.runState = .run ∧
      ((s.pos = s.len ∧ t = endRun s) ∨
        (s.pos < s.len ∧ ∃ c w, c ≠ .none ∧ t = takeFault c w s) ∨
        (s.pos < s.len ∧ s.bits = 0 ∧ ∃ flags, t = loadMask flags (curAdvance 1#32 s)) ∨
        (s.pos < s.len ∧ s.bits ≠ 0 ∧ ∃ k n u, Appended k n s u ∧
          t = afterToken (curAdvance (BitVec.ofNat 32 k) u)))) := by
  rcases engineTurn_next h with h | ⟨hr, h⟩ | ⟨hr, hlt, _, w, _, ht⟩ | ⟨hr, i, b, hi, _, _, hex⟩
  · exact .inl h
  · exact .inr ⟨hr, .inl h⟩
  · exact .inr ⟨hr, .inr (.inl ⟨hlt, _, w, by decide, ht⟩)⟩
  · obtain ⟨_, hlt, hc⟩ := item_next hi hex
    refine .inr ⟨hr, .inr ?_⟩
    rcases hc with hc | ⟨a, _, c⟩ | ⟨a, k, u, c, d⟩
    · exact .inl ⟨hlt, hc⟩
    · exact .inr (.inl ⟨hlt, a, c⟩)
    · exact .inr (.inr ⟨hlt, a, k, _, u, c, d⟩)

/-! ### The step -/

theorem step_empty {s : State} (h : s.schedule = []) : step s = engineTurn s := by
  unfold step; rw [h]

theorem step_engine {s : State} {rest : List Turn} (h : s.schedule = .engine :: rest) :
    step s = engineTurn s.popTurn := by
  unfold step; rw [h]

theorem step_host {s : State} {e : HostEvent} {rest : List Turn}
    (h : s.schedule = .host e :: rest) : step s = hostTurn e s.popTurn := by
  unfold step; rw [h]

@[simp] theorem step_withEvent (e : HostEvent) (s : State) :
    step (withEvent e s) = hostTurn e s := rfl

/-- An empty schedule has no turn to take off. -/
theorem popTurn_of_empty {s : State} (h : s.schedule = []) : s.popTurn = s := by
  cases s; simp_all [State.popTurn]

theorem engineMoves_of_empty {s : State} (h : s.schedule = []) : engineMoves s = true := by
  simp [engineMoves, h]

/-- The engine's move is its turn on the state whose schedule has lost the turn. -/
theorem step_of_engineMoves {s : State} (h : engineMoves s = true) :
    step s = engineTurn s.popTurn := by
  unfold engineMoves at h
  split at h
  · next hs =>
    rw [step_empty hs, popTurn_of_empty hs]
  · next hs => rw [step_engine hs]
  · cases h

/-- k + 1 steps are one step and k more. -/
theorem run_succ {s t : State} {k : Nat} {r : Host.Outcome State Fault Refusal}
    (h : step s = .next t) (h2 : Sys2Proof.core.run k t = r) :
    Sys2Proof.core.run (k + 1) s = r := by
  have h' : Sys2Proof.core.step s = .next t := h
  refine (Host.Core.run.eq_2 Sys2Proof.core s k).trans ?_
  rw [h']; exact h2

end Sys2Proof.Machine
end

