-- ==== Sys2Proof/Laws/HostPort.lean ====
section
/-! SUPPORT. The inversion law of a host event: everything it can answer as a next state. -/

namespace Sys2Proof.Machine

/-- A host event that is answered changes nothing, sets the reply (taking a free value or not), writes
LEN or one byte of P, resets the block (Reset, or CTRL with bit 1), or begins a run (CTRL with bit 0
alone, outside RUN). -/
theorem hostTurn_cases {e : HostEvent} {s t : State} (h : hostTurn e s = .next t) :
    t = s ∨ (∃ r, t = setReply r s ∨ t = setReply r (takeFree s)) ∨ (∃ v, t = writeLen v s) ∨
      (s.runState ≠ .run ∧ ∃ a b, t = writeP a b s) ∨
      ((e = .reset ∨ ∃ v, e = .regWrite 0 v ∧ v.getLsbD 1 = true) ∧ t = resetBlock s) ∨
      (∃ v, e = .regWrite 0 v ∧ v.getLsbD 1 = false ∧ v.getLsbD 0 = true ∧ s.runState ≠ .run ∧
        t = beginRun s) := by
  cases e with
  | regRead o =>
    simp only [hostTurn, hostRegRead] at h
    split at h
    · cases h; exact .inr (.inl ⟨_, .inr rfl⟩)
    · split at h <;> cases h
      exact .inr (.inl ⟨_, .inl rfl⟩)
  | regWrite o v =>
    simp only [hostTurn, hostRegWrite] at h
    split at h
    · next h0 =>
      subst h0
      simp only [hostCommand, decode, decodeCtrl] at h
      split at h
      · next i r hd =>
        split at hd
        · next h1 => cases hd; cases h; exact .inr (.inr (.inr (.inr (.inl ⟨.inr ⟨v, rfl, h1⟩, rfl⟩))))
        · next h1 =>
          split at hd
          · next h0 =>
            cases hd
            change (if busy s then Host.Outcome.next s else .next (beginRun s)) = _ at h
            split at h
            · cases h; exact .inl rfl
            · next hb =>
              cases h
              exact .inr (.inr (.inr (.inr (.inr ⟨v, rfl, by simpa using h1, h0, by simpa [busy] using hb, rfl⟩))))
          · cases hd
      · cases h; exact .inl rfl
    · split at h
      · cases h; exact .inr (.inr (.inl ⟨v, rfl⟩))
      · split at h <;> cases h
        exact .inl rfl
  | pWrite a b =>
    simp only [hostTurn] at h
    split at h
    · cases h
    · next hb => cases h; exact .inr (.inr (.inr (.inl ⟨by simpa [busy] using hb, _, _, rfl⟩)))
  | pRead a =>
    simp only [hostTurn] at h
    split at h <;> cases h
    exact .inr (.inl ⟨_, .inl rfl⟩)
  | oRead a =>
    simp only [hostTurn] at h
    split at h <;> cases h
    exact .inr (.inl ⟨_, .inl rfl⟩)
  | reset => cases h; exact .inr (.inr (.inr (.inr (.inl ⟨.inl rfl, rfl⟩))))

end Sys2Proof.Machine
end

