-- ==== Sys2Proof/Laws/PerInstr.lean ====
section
/-! SUPPORT. The statement made per instruction: an encoding takes as many bytes as the opcode table says
(spec/30_encoding.md R86), at every output length. -/

namespace Sys2Proof.Laws.Length

/-- The encoding of the instruction is as long as the opcode table says. -/
def Statement (i : Instr) : Prop := ∀ n : Word, encodedBytes (encode n i) = lengthBytes i

theorem mask (flags : Byte) : Statement (.mask flags) := fun _ => rfl

theorem lit (v : Byte) : Statement (.lit v) := fun _ => rfl

theorem copy (f : BitVec 12) (m : BitVec 4) : Statement (.copy f m) := fun _ => rfl

theorem copyD (d : BitVec 12) (m : BitVec 4) : Statement (.copyD d m) := fun _ => rfl

theorem start (ignored : BitVec 30) : Statement (.start ignored) := fun _ => rfl

theorem rst (startBit : Bool) (ignored : BitVec 30) : Statement (.rst startBit ignored) := fun _ => rfl

end Sys2Proof.Laws.Length
end

