-- ==== Sys2Proof/Laws/Reference.lean ====
section
/-! SUPPORT. Laws of the reference function's parts: its resolver is the machine's, its copy loop appends
k bytes, each equal to the byte as far back as the source lies behind the end. -/

namespace Sys2Proof.Machine

theorem refPosition_eq (f : BitVec 12) (n : Word) :
    refPosition f.toNat n.toNat = corrected f n := by
  rw [corrected_eq]; rfl

theorem refCopy_appends (k p : Nat) (out : List Byte) (hp : p < out.length) :
    (refCopy k p out).length = out.length + k ∧ (∀ a < out.length, (refCopy k p out)[a]? = out[a]?) ∧
    (∀ i < k, (refCopy k p out)[out.length + i]? = (refCopy k p out)[p + i]?) := by
  induction k generalizing p out with
  | zero => exact ⟨rfl, fun _ _ => rfl, fun i hi => by omega⟩
  | succ k ih =>
    have hb : out[p]? = some out[p] := List.getElem?_eq_getElem hp
    unfold refCopy
    rw [hb]
    simp only
    obtain ⟨h1, h2, h3⟩ := ih (p + 1) (out ++ [out[p]]) (by simp; omega)
    simp only [List.length_append, List.length_singleton] at h1 h2 h3
    refine ⟨by omega, fun a ha => ?_, fun i hi => ?_⟩
    · rw [h2 a (by omega), List.getElem?_append_left ha]
    · rcases i with _ | i
      · rw [h2 _ (by omega), h2 _ (by omega), Nat.add_zero, Nat.add_zero, List.getElem?_append_left (l₁ := out) (i := p) hp, List.getElem?_append_right (by omega)]
        simp
      · have := h3 i (by omega)
        rw [show out.length + (i + 1) = out.length + 1 + i by omega, this]
        congr 1; omega

end Sys2Proof.Machine
end

