-- ==== Sys2Proof/Tests/Slice0.lean ====
section
/-! SUPPORT. Tests against the spec's own vectors (spec/95_test_vectors.md, table R154 of spec/43_copy.md),
and for every obligation with hypotheses a witness that meets them. Expected values are the spec's. -/

open Sys2Proof Sys2Proof.Machine

namespace Sys2Proof.Tests

/-! ### Helpers -/

/-- Bytes as a memory from address 0. -/
def cells (bytes : List Byte) : Memory := placeBytes 0 bytes []

/-- A state in RUN with a payload, a cursor, a mask register, an output and an OUT_CAP. -/
def inRun (payload : List Byte) (pos : Word) (mask : Byte) (bits : BitVec 4) (out : List Byte)
    (cap : Word) : State :=
  { State.resetOf { outCap := cap } with
    runState := .run, p := cells payload, len := BitVec.ofNat 32 payload.length, pos := pos,
    mask := mask, bits := bits, outlen := BitVec.ofNat 32 out.length, o := cells out }

/-- A state outside RUN with a payload and an output. -/
def resting (r : RunState) (payload out : List Byte) : State :=
  { inRun payload 0 0 0 out 100 with runState := r }

/-- The next state of an outcome, if it is one. -/
def nextOf : Host.Outcome State Fault Refusal → Option State
  | .next t => some t
  | .fault _ => none
  | .refused _ => none

/-- What the vectors list of a state. -/
structure Row where
  runState : RunState
  cause : Cause
  pos : Word
  outlen : Word
  farg : BitVec 16
  mask : Byte
  bits : BitVec 4
  deriving DecidableEq, Repr

/-- The listed values of a state. -/
def row (s : State) : Row := ⟨s.runState, s.cause, s.pos, s.outlen, s.farg, s.mask, s.bits⟩

/-- The listed values after one step. -/
def stepRow (s : State) : Option Row := (nextOf (step s)).map row

/-- O after one step. -/
def stepOut (s : State) : Option Memory := (nextOf (step s)).map State.o

/-! ### WellFormed -/

/-- R92: 1 <= d. -/
theorem test_wellFormed_refuses_distance_zero : (Instr.copyD 0 0).wellFormed = false := by decide

/-- R92: d <= OUTLEN. -/
theorem test_wellFormedAt_refuses_distance_past_output :
    (Instr.copyD 6 0).wellFormedAt 5 = false ∧ (Instr.copyD 0 0).wellFormedAt 5 = false := by decide

/-- R88: no encoding is reserved; R92: the bounds themselves are legal. -/
theorem test_wellFormed_accepts :
    (Instr.copyD 1 0).wellFormed = true ∧ (Instr.copyD 4095 15).wellFormed = true ∧
    (Instr.copyD 5 0).wellFormedAt 5 = true ∧ (Instr.mask 0).wellFormed = true ∧
    (Instr.lit 0xFF).wellFormed = true ∧ (Instr.copy 0xFFF 15).wellFormed = true ∧
    (Instr.start 0).wellFormed = true ∧ (Instr.rst true 0).wellFormed = true := by decide

/-! ### Decoding, words written out from the spec -/

/-- Table E, `FF F0`, `0D 00`, `F1 F2`. -/
theorem test_decode_copy :
    decode (.payload .copy [0xFF, 0xF0]) = .ok (.copy 0xFFF 0, []) ∧
    decode (.payload .copy [0x0D, 0x00]) = .ok (.copy 0x00D 0, []) ∧
    decode (.payload .copy [0xF1, 0xF2]) = .ok (.copy 0xFF1 2, []) := by decide

/-- R81, R82: a mask and a literal are their one byte. -/
theorem test_decode_mask_lit :
    decode (.payload .mask [0b01011101]) = .ok (.mask 0x5D, []) ∧
    decode (.payload .lit [0b01000001]) = .ok (.lit 0x41, []) ∧
    decode (.payload .mask []) = .error .noByte := by decide

/-- R29, H7: bits 31:2 are ignored, bit 1 wins, neither bit is no command. -/
theorem test_decode_ctrl :
    decode (.ctrl 0b01) = .ok (.start 0, []) ∧ decode (.ctrl 0b10) = .ok (.rst false 0, []) ∧
    decode (.ctrl 0b11) = .ok (.rst true 0, []) ∧ decode (.ctrl 0xFFFFFFFC) = .error .noCommand ∧
    decode (.ctrl 0xFFFFFFFD) = .ok (.start 0x3FFFFFFF, []) := by decide

/-- Table M: the flags of 0x5D, 0x7F, 0xE0. -/
theorem test_mask_flags :
    maskFlags 0x5D = [true, false, true, true, true, false, true, false] ∧
    maskFlags 0x7F = [true, true, true, true, true, true, true, false] ∧
    maskFlags 0xE0 = [false, false, false, false, false, true, true, true] := by decide

/-- Table D: the bytes of COPY.D at OUTLEN 35, 4095, 4096, 4097, 4101. -/
theorem test_encode_copyD :
    encode 35 (.copyD 32 2) = .payload .copy [0xF1, 0xF2] ∧
    encode 4095 (.copyD 4095 0) = .payload .copy [0xEE, 0xF0] ∧
    encode 4096 (.copyD 1 0) = .payload .copy [0xED, 0xF0] ∧
    encode 4097 (.copyD 3 1) = .payload .copy [0xEC, 0xF1] ∧
    encode 4101 (.copyD 4095 0) = .payload .copy [0xF4, 0xF0] := by decide

/-- The listing of program P1. -/
theorem test_disassemble_P1 :
    disassemble [] [0x7F, 0x61, 0x62, 0x72, 0x61, 0x63, 0x61, 0x64, 0xEE, 0xF1, 0x05, 0x20, 0xEE, 0xF8,
      0x21] =
    ([.mask 0x7F, .lit 0x61, .lit 0x62, .lit 0x72, .lit 0x61, .lit 0x63, .lit 0x61, .lit 0x64,
      .copy 0xFEE 1, .mask 0x05, .lit 0x20, .copy 0xFEE 8, .lit 0x21], none) := by decide

/-- R93 with T13's payload: the cut copy is reported. -/
theorem test_disassemble_cut_copy : disassemble [] [0x00, 0x41] = ([.mask 0], some .truncatedCopy) := by
  decide

/-! ### Resolver, the table of R154 -/

theorem test_resolve_small :
    corrected 0x000 0 = -4078 ∧ resolve 0x000 0 = none ∧ resolve 0xFEE 1 = some 0 ∧
    resolve 0xFEF 1 = none ∧ corrected 0xFF1 2 = -4093 ∧ resolve 0xFFF 18 = some 17 ∧
    resolve 0x001 22 = some 19 := by decide

theorem test_resolve_block_wrap :
    resolve 0xFEE 4095 = some 0 ∧ resolve 0xFED 4096 = some 4095 ∧ resolve 0xFEE 4096 = none ∧
    resolve 0xFEC 4097 = some 4094 ∧ resolve 0xFF2 4101 = some 4100 ∧ resolve 0xFF3 4101 = none ∧
    resolve 0xFF4 4101 = some 6 := by decide

/-! ### Cursor, K10 to K12 -/

theorem test_cursor_peek :
    curPeekToken true (inRun [0x01, 0x41, 0xEE] 2 0 7 [0x41] 100) = .ok 0x00EE ∧
    curPeekToken true (inRun [0x01, 0x41, 0xEF, 0xF0] 2 0 7 [0x41] 100) = .ok 0xF0EF ∧
    curPeekToken false (inRun [0xFF, 0x01, 0x02, 0x03, 0x04] 4 0 5 [] 100) = .ok 0x0004 := by decide

/-! ### Steps -/

/-- P1 step 1. -/
theorem test_mask_step :
    stepRow (inRun [0x7F, 0x61] 0 0 0 [] 100) = some ⟨.run, .none, 1, 0, 0, 0x7F, 8⟩ := by decide

/-- T4 step 10: a mask as the last byte leaves the run in RUN. -/
theorem test_mask_last_byte :
    stepRow (inRun [0x5A] 0 0 0 [] 100) = some ⟨.run, .none, 1, 0, 0, 0x5A, 8⟩ := by decide

/-- T3 step 4: the last literal ends the run and keeps MASK and BITS. -/
theorem test_lit_ends_run :
    stepRow (inRun [0xFF, 0x41, 0x42, 0x43] 3 0x3F 6 [0x41, 0x42] 100) =
      some ⟨.done, .none, 4, 3, 0, 0x3F, 6⟩ ∧
    stepOut (inRun [0xFF, 0x41, 0x42, 0x43] 3 0x3F 6 [0x41, 0x42] 100) =
      some [(0, 0x41), (1, 0x42), (2, 0x43)] := by decide

/-- T19: a literal into a full output. -/
theorem test_lit_overflow :
    stepRow (inRun [0xFF, 1, 2, 3, 4] 4 0x1F 5 [1, 2, 3] 3) =
      some ⟨.fault, .outputOverflow, 4, 3, 0x0004, 0x1F, 5⟩ := by decide

/-- T9: an overlapping copy, d = 2 < n = 7. -/
theorem test_copy_overlap :
    stepRow (inRun [0x03, 0x41, 0x42, 0xEE, 0xF4] 3 0x00 6 [0x41, 0x42] 100) =
      some ⟨.done, .none, 5, 9, 0, 0x00, 6⟩ ∧
    stepOut (inRun [0x03, 0x41, 0x42, 0xEE, 0xF4] 3 0x00 6 [0x41, 0x42] 100) =
      some (cells [0x41, 0x42, 0x41, 0x42, 0x41, 0x42, 0x41, 0x42, 0x41]) := by decide

/-- P1 step 9: a copy as token 7 leaves BITS = 0 in RUN. -/
theorem test_copy_ends_group :
    stepRow (inRun [0x7F, 0x61, 0x62, 0x72, 0x61, 0x63, 0x61, 0x64, 0xEE, 0xF1, 0x05] 8 0x00 1
      [0x61, 0x62, 0x72, 0x61, 0x63, 0x61, 0x64] 100) =
      some ⟨.run, .none, 10, 11, 0, 0x00, 0⟩ := by decide

/-- T11, T20a, T13: the three faults of a copy. -/
theorem test_copy_faults :
    stepRow (inRun [0x01, 0x41, 0xEF, 0xF0] 2 0x00 7 [0x41] 100) =
      some ⟨.fault, .badBackReference, 2, 1, 0xF0EF, 0x00, 7⟩ ∧
    stepRow (inRun [0x01, 0x58, 0xEE, 0xF2] 2 0x00 7 [0x58] 5) =
      some ⟨.fault, .outputOverflow, 2, 1, 0xF2EE, 0x00, 7⟩ ∧
    stepRow (inRun [0x00, 0x41] 1 0x00 8 [] 100) =
      some ⟨.fault, .truncatedCopy, 1, 0, 0x0041, 0x00, 8⟩ := by decide

/-- T21, T22: the order of the tests (R181). -/
theorem test_fault_priority :
    stepRow (inRun [0x01, 0x41, 0xEF, 0xF0] 2 0x00 7 [0x41] 1) =
      some ⟨.fault, .badBackReference, 2, 1, 0xF0EF, 0x00, 7⟩ ∧
    stepRow (inRun [0x00, 0x41] 1 0x00 8 [] 0) =
      some ⟨.fault, .truncatedCopy, 1, 0, 0x0041, 0x00, 8⟩ := by decide

/-- Table D, OUTLEN 2: COPY.D d=1, n=5 copies the last byte five times. -/
theorem test_copyD :
    (nextOf (exec (.copyD 1 2) (inRun [0, 0, 0] 1 0 8 [0x41, 0x42] 100))).map State.o =
      some (cells [0x41, 0x42, 0x42, 0x42, 0x42, 0x42, 0x42]) := by decide

/-- H6: START clears the record of the faulted run; H3: in RUN it is ignored. -/
theorem test_start :
    stepRow (withEvent (.regWrite 0x00 1)
      { resting .fault [0, 0, 0] [] with cause := .badBackReference, pos := 1, bits := 8 }) =
      some ⟨.run, .none, 0, 0, 0, 0, 0⟩ ∧
    stepRow (withEvent (.regWrite 0x00 1) (inRun [0xFF, 0x41, 0x42] 2 0x7F 7 [0x41] 100)) =
      some ⟨.run, .none, 2, 1, 0, 0x7F, 7⟩ := by decide

/-- H4, H7: RST in RUN, by CTRL = 2 and by CTRL = 3. -/
theorem test_rst :
    nextOf (step (withEvent (.regWrite 0x00 2) (inRun [0xFF, 0x41, 0x42] 2 0x7F 7 [0x41] 100))) =
      some (State.resetOf { outCap := 100 }) ∧
    nextOf (step (withEvent (.regWrite 0x00 3) (resting .done [1] [1]))) =
      some (State.resetOf { outCap := 100 }) := by decide

/-- H5, H8: LEN in RUN and in DONE. -/
theorem test_len_write :
    (nextOf (step (withEvent (.regWrite 0x0C 2) (inRun [0xFF, 1, 2, 3] 1 0xFF 8 [] 100)))).map
      State.len = some 4 ∧
    (nextOf (step (withEvent (.regWrite 0x0C 100) (resting .done [1] [1])))).map State.len =
      some 100 := by decide

/-- T1: END on an empty payload; H1: the engine rests in IDLE. -/
theorem test_end_and_idle :
    stepRow (inRun [] 0 0 0 [] 100) = some ⟨.done, .none, 0, 0, 0, 0, 0⟩ ∧
    nextOf (step State.reset) = some State.reset := by decide

/-- H2, last lines: ORead of the frame and past it. -/
theorem test_oRead :
    (nextOf (step (withEvent (.oRead 2) (resting .done [] [0x41, 0x42, 0x43])))).map State.reply =
      some (some (.byte 0x43)) ∧
    (nextOf (step (withEvent (.oRead 3) (resting .done [] [0x41, 0x42, 0x43])))).map State.reply =
      some (some .noValue) := by decide

/-- R26, R27, R30: the numbers of STATUS and CAUSE; H3: STATUS is 1 in RUN. -/
theorem test_regRead_codes :
    ([RunState.idle, .run, .done, .fault].map fun r =>
      (nextOf (step (withEvent (.regRead 0x04) (resting r [] [])))).map State.reply) =
      [some (some (.word 0)), some (some (.word 1)), some (some (.word 2)), some (some (.word 3))] ∧
    ([Cause.none, .badBackReference, .truncatedCopy, .outputOverflow].map fun c =>
      (nextOf (step (withEvent (.regRead 0x08)
        { resting .fault [] [] with cause := c }))).map State.reply) =
      [some (some (.word 0)), some (some (.word 1)), some (some (.word 2)), some (some (.word 3))] := by
  decide

/-- R163, R204, U11: in RUN a read of POS completes, changes no register and takes one free value. -/
theorem test_regRead_in_run :
    (nextOf (step (withEvent (.regRead 0x10) (inRun [0x7F, 0x61] 1 0x7F 8 [] 100)))).map row = some (row (inRun [0x7F, 0x61] 1 0x7F 8 [] 100)) ∧
    (nextOf (step (withEvent (.regRead 0x10) (inRun [0x7F, 0x61] 1 0x7F 8 [] 100)))).map State.freeReads = some 1 := by
  decide

/-- A table word placed after reset is what the next step runs. -/
theorem test_withFetchWord :
    stepRow (State.reset.withFetchWord 8 0x7F) = some ⟨.run, .none, 1, 0, 0, 0x7F, 8⟩ ∧
    stepRow (State.reset.withFetchWord 16 0) =
      some ⟨.fault, .badBackReference, 0, 0, 0, 0, 8⟩ ∧
    stepRow (State.reset.withFetchWord 32 1) = some ⟨.run, .none, 0, 0, 0, 0, 0⟩ ∧
    decodeTableWord 16 0xF2EE = some (.copy 0xFEE 2) := by decide

/-- R122 on T8, T24 and P4. -/
theorem test_decompress :
    decompress [0x01, 0x58, 0xEE, 0xF2] 100 = .ok [0x58, 0x58, 0x58, 0x58, 0x58, 0x58] ∧
    decompress [0x02, 0x41, 0xEE] 100 = .fault .badBackReference 1 0xEE41 [] ∧
    decompress [0x1F, 0x48, 0x45, 0x4C, 0x4C, 0x4F, 0xFC, 0xFF, 0x21] 100 =
      .fault .badBackReference 6 0xFFFC [0x48, 0x45, 0x4C, 0x4C, 0x4F] := by decide

/-! ### Witnesses: states and operands that meet the hypotheses of the obligations -/

/-- A mask is due, the last byte but one. -/
def atMask : State := inRun [0x7F, 0x61] 0 0 0 [] 100

/-- A literal is due, the output two bytes long, OUT_CAP as given. -/
def atLit (cap : Word) : State := inRun [0xFF, 1, 2, 3, 4] 3 0x3F 6 [1, 2] cap

/-- A copy is due with both bytes, the output two bytes long (T9), OUT_CAP as given. -/
def atCopy (cap : Word) : State := inRun [0x03, 0x41, 0x42, 0xEE, 0xF4] 3 0x00 6 [0x41, 0x42] cap

/-- A copy is due with one byte left (T14). -/
def atCut : State := inRun [0x01, 0x41, 0xEE] 2 0x00 7 [0x41] 100

/-- A copy that refers to OUTLEN itself (T11). -/
def atBad : State := inRun [0x01, 0x41, 0xEF, 0xF0] 2 0x00 7 [0x41] 100

/-- A copy as the first token (T10). -/
def atFirstCopy : State := inRun [0x00, 0x00, 0x00] 1 0x00 8 [] 100

/-- The end of the payload, flags unused or not. -/
def atEnd (bits : BitVec 4) : State := inRun [0x5A] 1 0 bits [] 100

/-- The same state with the engine's turn listed before a host turn. -/
def listed (s : State) : State := { s with schedule := [.engine, .host .reset] }

/-- A running copy due: what the copy statements ask of the state. -/
abbrev CopyDue (s : State) : Prop :=
  s.runState = .run ∧ 0 < s.bits ∧ s.mask.getLsbD 0 = false ∧ 2 ≤ curRemaining s

/-- A running literal due: what the literal statements ask of the state. -/
abbrev LitDue (s : State) : Prop :=
  s.runState = .run ∧ 0 < s.bits ∧ s.mask.getLsbD 0 = true ∧ s.pos < s.len

/-- The step answers a next state. -/
abbrev Answers (s : State) : Prop := (nextOf (step s)).isSome = true

theorem witness_DecodeEncodeRoundTrip : ∀ d m, Instr.copy 0xABC 7 ≠ .copyD d m := by
  intro d m h; cases h

theorem witness_EncodeDecodeRoundTrip :
    decode (.payload .copy [0xBC, 0xA7, 0x00]) = .ok (.copy 0xABC 7, [0x00]) ∧
    decode (.ctrl 0xFFFFFFFF) = .ok (.rst true 0x3FFFFFFF, []) := by decide

theorem witness_CopyDStandsForCopy :
    (1 ≤ (1 : BitVec 12).toNat ∧ (1 : BitVec 12).toNat ≤ (atCut).outlen.toNat) ∧
    (1 ≤ (4095 : BitVec 12).toNat ∧
      (4095 : BitVec 12).toNat ≤ { State.reset with outlen := 4095 }.outlen.toNat) := by decide

theorem witness_ResolverDistanceForm :
    ¬ (copyDistance 0xFEE 4095 = 0 ∨ (4095 : Word).toNat < copyDistance 0xFEE 4095) ∧
    ¬ (copyDistance 0xFED 4096 = 0 ∨ (4096 : Word).toNat < copyDistance 0xFED 4096) ∧
    copyDistance 0xFEE 4095 = 4095 ∧ copyDistance 0xFED 4096 = 1 ∧
    copyDistance 0xFEE 4096 = 0 ∧ copyDistance 0xFF1 2 = 4095 ∧ CopyDue (atCopy 100) := by decide

theorem witness_GoodCopyFieldsByOutputLength :
    (4095 : Word).toNat < 4096 ∧ 4096 ≤ (4096 : Word).toNat := by decide

theorem witness_MaskTokenCompletes :
    atMask.runState = .run ∧ atMask.bits = 0 ∧ atMask.pos < atMask.len := by decide

theorem witness_LiteralTokenCompletes :
    (LitDue (atLit 3) ∧ (atLit 3).outlen.toNat + 1 ≤ (atLit 3).cfg.outCap.toNat) ∧
    (LitDue (atLit 2) ∧ (atLit 2).cfg.outCap.toNat < (atLit 2).outlen.toNat + 1) := by decide

theorem witness_CopyTokenCompletes :
    CopyDue (atCopy 9) ∧
    (1 ≤ copyDistance 0xFEE (atCopy 9).outlen ∧
      copyDistance 0xFEE (atCopy 9).outlen ≤ (atCopy 9).outlen.toNat) ∧
    (atCopy 9).outlen.toNat + ((4 : BitVec 4).toNat + 3) ≤ (atCopy 9).cfg.outCap.toNat ∧
    (∀ a < (atCopy 9).outlen.toNat, ((atCopy 9).o.read a).isSome) ∧
    copyDistance 0xFEF (atCopy 9).outlen = 1 := by decide

theorem witness_CopyDTokenCompletes :
    CopyDue (atCopy 9) ∧ 1 ≤ (2 : BitVec 12).toNat ∧
    (2 : BitVec 12).toNat ≤ (atCopy 9).outlen.toNat ∧
    (atCopy 9).outlen.toNat + ((4 : BitVec 4).toNat + 3) ≤ (atCopy 9).cfg.outCap.toNat ∧
    (∀ a < (atCopy 9).outlen.toNat, ((atCopy 9).o.read a).isSome) := by decide

theorem witness_StartBeginsRun :
    State.reset.runState ≠ .run ∧ (resting .done [1] [1]).runState ≠ .run ∧
    (resting .fault [1] [1]).runState ≠ .run := by decide

theorem witness_StartIgnoredInRun : (atLit 3).runState = .run := by decide

theorem witness_BadBackReferenceFaults :
    (CopyDue atBad ∧ (atBad.outlen.toNat : Int) ≤ corrected 0xFEF atBad.outlen) ∧
    (CopyDue atFirstCopy ∧ corrected 0x000 atFirstCopy.outlen < 0) := by decide

theorem witness_TruncatedCopyFaults :
    engineMoves atCut = true ∧ engineMoves (listed atCut) = true ∧ atCut.runState = .run ∧
    0 < atCut.bits ∧
    atCut.mask.getLsbD 0 = false ∧ curRemaining atCut = 1 ∧
    readP atCut.pos.toNat atCut = some 0xEE ∧ distanceField 1 atCut.outlen = 0xFEE := by decide

theorem witness_OutputOverflowFaults :
    (LitDue (atLit 2) ∧ (atLit 2).cfg.outCap.toNat < (atLit 2).outlen.toNat + 1) ∧
    (CopyDue (atCopy 8) ∧ 0 ≤ corrected 0xFEE (atCopy 8).outlen ∧
      corrected 0xFEE (atCopy 8).outlen < (atCopy 8).outlen.toNat ∧
      (atCopy 8).cfg.outCap.toNat < (atCopy 8).outlen.toNat + ((4 : BitVec 4).toNat + 3)) := by
  decide

theorem witness_FaultEntryChangesOnlyRecord :
    engineMoves atCut = true ∧ engineMoves (listed atCut) = true ∧ atCut.runState = .run ∧
    (nextOf (step atCut)).map State.runState = some .fault ∧
    (nextOf (step (listed atCut))).map State.runState = some .fault ∧
    (nextOf (step atBad)).map State.runState = some .fault := by decide

theorem witness_PayloadItemFrame :
    isItem (.copy 0xFEE 4) = true ∧
    (nextOf (exec (.copy 0xFEE 4) (atCopy 9))).map State.runState = some .done ∧
    (nextOf (exec (.copy 0xFEE 4) (atCopy 8))).map State.runState = some .fault ∧
    (nextOf (exec (.lit 9) (atLit 3))).isSome ∧ (nextOf (exec (.mask 9) atMask)).isSome := by
  decide

theorem witness_HostCommandFrame :
    (nextOf (exec (.start 0) State.reset)).isSome ∧ (nextOf (exec (.start 0) atMask)).isSome ∧
    atMask.runState = .run ∧ (nextOf (exec (.rst true 0) atMask)).isSome := by decide

theorem witness_StepRunsDecodedInstruction :
    (atCopy 9).runState = .run ∧ (atCopy 9).pos ≠ (atCopy 9).len ∧
    (∀ j < 2, readP ((atCopy 9).pos.toNat + j) (atCopy 9) = [(0xEE : Byte), 0xF4][j]?) ∧
    decode (.payload (selectedKind (atCopy 9)) [0xEE, 0xF4]) = .ok (.copy 0xFEE 4, []) ∧
    (atCopy 9).schedule = [] ∧
    { atCopy 9 with schedule := [.engine] }.schedule = .engine :: [] ∧
    decode (.ctrl 1) = .ok (.start 0, []) := by decide

theorem witness_DispatcherSelectsByContext :
    (engineMoves atMask = true ∧ engineMoves (listed atMask) = true ∧ atMask.runState = .run ∧
      readP atMask.pos.toNat atMask = some 0x7F ∧
      atMask.bits = 0) ∧
    (LitDue (atLit 3) ∧ readP (atLit 3).pos.toNat (atLit 3) = some 3) ∧
    (CopyDue (atCopy 9) ∧ readP (atCopy 9).pos.toNat (atCopy 9) = some 0xEE ∧
      readP ((atCopy 9).pos.toNat + 1) (atCopy 9) = some 0xF4) := by decide

theorem witness_EngineEndsRunAtPayloadEnd :
    (engineMoves (atEnd 0) = true ∧ (atEnd 0).runState = .run ∧ (atEnd 0).pos = (atEnd 0).len) ∧
    (engineMoves (listed (atEnd 8)) = true ∧ (atEnd 8).runState = .run ∧
      (atEnd 8).pos = (atEnd 8).len) := by
  decide

theorem witness_EngineRestsOutsideRun :
    State.reset.runState ≠ .run ∧ State.reset.schedule = [] ∧
    { State.reset with schedule := [.engine] }.schedule = .engine :: [] := by decide

theorem witness_MaskFlagsInOrder :
    (nextOf (exec (.mask 0x7F) atMask)).isSome ∧
    FlagsUsed 0x7F 1 { atLit 3 with mask := 0x3F, bits := 7 } ∧
    FlagsUsed 0xFF 7 { atLit 3 with mask := 0x01, bits := 1 } ∧
    engineMoves (atLit 3) = true ∧ (atLit 3).runState = .run ∧
    (nextOf (step { atLit 3 with mask := 0x01, bits := 1 })).map State.runState = some .run := by
  unfold FlagsUsed; decide

theorem witness_OnlyTheNextFlagMatters :
    engineMoves (atCopy 9) = true ∧ engineMoves (listed (atCopy 9)) = true ∧
    (atCopy 9).mask.getLsbD 0 = (0xFE : Byte).getLsbD 0 := by decide

theorem witness_CursorReadsInOrder :
    (engineMoves atMask = true ∧ atMask.runState = .run ∧ atMask.pos < atMask.len ∧
      atMask.p.read atMask.pos.toNat = some 0x7F ∧ atMask.bits = 0) ∧
    (engineMoves (listed (atLit 3)) = true ∧ LitDue (atLit 3) ∧
      (atLit 3).p.read (atLit 3).pos.toNat = some 3 ∧
      (atLit 3).outlen.toNat + 1 ≤ (atLit 3).cfg.outCap.toNat) ∧
    (engineMoves (atCopy 9) = true ∧ engineMoves (listed (atCopy 9)) = true ∧ CopyDue (atCopy 9) ∧
      (atCopy 9).p.read (atCopy 9).pos.toNat = some 0xEE ∧
      (atCopy 9).p.read ((atCopy 9).pos.toNat + 1) = some 0xF4 ∧
      copyDistance (rawField 0xEE 0xF4) (atCopy 9).outlen = 2 ∧ (atCopy 9).outlen.toNat = 2 ∧
      (atCopy 9).outlen.toNat + ((0xF4 : Byte).toNat % 16 + 3) ≤ (atCopy 9).cfg.outCap.toNat ∧
      ∀ a < (atCopy 9).outlen.toNat, ((atCopy 9).o.read a).isSome) := by decide

theorem witness_RegistersAfterResetAndStart : State.reset.runState ≠ .run := by decide

theorem witness_ResetEventResetsBlock :
    (nextOf (step (withEvent .reset atBad))).isSome ∧
    (nextOf (engineTurn (resetBlock atBad))).isSome ∧
    (nextOf (engineTurn State.reset)).isSome := by decide

theorem witness_CtrlWordCommands :
    ((3 : Word).getLsbD 1 = true) ∧ ((1 : Word).getLsbD 1 = false ∧ (1 : Word).getLsbD 0 = true) ∧
    ((0xFFFFFFFC : Word).getLsbD 1 = false ∧ (0xFFFFFFFC : Word).getLsbD 0 = false) := by decide

theorem witness_HostReadsRegisters :
    (State.reset.runState = .idle ∧ State.reset.cause = .none) ∧ atMask.runState = .run ∧
    (resting .done [] []).runState = .done ∧
    ({ resting .fault [] [] with cause := .outputOverflow }.runState = .fault ∧
      { resting .fault [] [] with cause := .outputOverflow }.cause = .outputOverflow) ∧
    0x1C ≤ 0x1C := by decide

theorem witness_HostWritesRegisters :
    State.reset.runState ≠ .run ∧ atMask.runState = .run ∧
    (0x04 = 0x04 ∨ 0x1C ≤ 0x04) ∧ 0x1C ≤ 0x1C ∧
    ((2 : Word).getLsbD 1 = true) ∧ ((1 : Word).getLsbD 1 = false ∧ (1 : Word).getLsbD 0 = true) ∧
    ((0 : Word).getLsbD 1 = false ∧ (0 : Word).getLsbD 0 = false) := by decide

theorem witness_HostAccessesMemories :
    (resting .done [7] [9]).runState ≠ .run ∧
    (resting .done [7] [9]).p.read (0 : Word).toNat = some 7 ∧
    (resting .done [7] [9]).runState = .done ∧ (resting .fault [7] [9]).runState = .fault ∧
    (0 : Word) < (resting .done [7] [9]).outlen ∧
    (resting .done [7] [9]).o.read (0 : Word).toNat = some 9 ∧ atMask.runState = .run := by decide

theorem witness_EvtFollowsState :
    evt (resting .done [] []) = true ∧ evt (resting .fault [] []) = true := by decide

theorem witness_RunStateTransitions :
    (nextOf (step (atCopy 9))).map State.runState = some .done ∧
    (nextOf (step atBad)).map State.runState = some .fault ∧
    (nextOf (step (withEvent (.regWrite 0x00 2) atBad))).map State.runState = some .idle ∧
    (nextOf (step (withEvent (.regWrite 0x00 1) State.reset))).map State.runState = some .run ∧
    (nextOf (step (withEvent .reset atBad))).map State.runState = some .idle := by decide

theorem witness_EngineLeavesPayloadAlone : engineMoves (atCopy 9) = true ∧ Answers (atCopy 9) := by
  decide

theorem witness_OutputBytesNeverRewritten :
    engineMoves (atCopy 9) = true ∧ Answers (atCopy 9) ∧ 1 < (atCopy 9).outlen.toNat := by decide

theorem witness_CursorMovesForward :
    engineMoves (atCopy 9) = true ∧ (atCopy 9).runState = .run ∧ Answers (atCopy 9) ∧
    (nextOf (step atMask)).map State.runState = some .run := by decide

theorem witness_DoneMeansPayloadConsumed :
    engineMoves (atEnd 8) = true ∧ (atEnd 8).runState = .run ∧
    (nextOf (step (atEnd 8))).map State.runState = some .done ∧
    (nextOf (step (atCopy 9))).map State.runState = some .done ∧
    (nextOf (step atBad)).map State.runState = some .fault := by decide

theorem witness_StepKeepsInv : BlockInv (atCopy 9) ∧ Answers (atCopy 9) := by
  unfold BlockInv; decide

theorem witness_RunTerminates :
    BlockInv (atCopy 9) ∧ (atCopy 9).runState = .run ∧ (atCopy 9).schedule = [] ∧
    PayloadWritten (atCopy 9) := by
  unfold BlockInv; decide

theorem witness_RunComputesDecompress :
    (resting .idle [0x01, 0x58, 0xEE, 0xF2] []).runState ≠ .run ∧
    (resting .idle [0x01, 0x58, 0xEE, 0xF2] []).schedule = [] ∧
    HoldsPayload [0x01, 0x58, 0xEE, 0xF2] (resting .idle [0x01, 0x58, 0xEE, 0xF2] []) := by
  unfold HoldsPayload; decide

theorem witness_StartForgetsEarlierRun :
    (resting .done [1] [1]).runState ≠ .run ∧ (resting .fault [1] [2, 3]).runState ≠ .run ∧
    InputsKept (resting .done [1] [1]) (resting .fault [1] [2, 3]) := by
  unfold InputsKept; decide

theorem witness_CopyUnitDeadBetweenSteps :
    withoutCopyUnit (atCopy 9) = withoutCopyUnit { atCopy 9 with src := 5, rem := 7 } := by decide

theorem witness_BytesBeyondLenNeverMatter :
    engineMoves (atCopy 9) = true ∧ engineMoves (listed (atCopy 9)) = true ∧
    ∀ a < (atCopy 9).len.toNat, ((atCopy 9).p.write 5 0xFF).read a = (atCopy 9).p.read a := by
  decide

end Sys2Proof.Tests
end

section
/-! SUPPORT. What a step answers, split by who moves, and the invariant of R34 in the form it has in each
value of STATE. Every move of the engine and of the host keeps it. -/

namespace Sys2Proof.Machine

/-! ### The step by its mover -/

/-- A next state is answered either to the engine's move or to the host event that heads the schedule. -/
theorem step_next {s t : State} (h : step s = .next t) :
    (engineMoves s = true ∧ engineTurn s.popTurn = .next t) ∨
      ∃ e rest, s.schedule = .host e :: rest ∧ hostTurn e s.popTurn = .next t := by
  cases hm : engineMoves s with
  | true => exact .inl ⟨rfl, by rwa [step_of_engineMoves hm] at h⟩
  | false =>
    unfold engineMoves at hm
    split at hm
    · cases hm
    · cases hm
    · next e rest hs => exact .inr ⟨e, rest, hs, by rwa [step_host hs] at h⟩

/-! ### What the appended bytes of a token leave alone -/

theorem Appended.inputsKept {k n : Nat} {s u : State} (h : Appended k n s u) : InputsKept s u := by
  rw [h.only]; exact ⟨rfl, rfl, rfl, rfl, rfl, rfl⟩

theorem Appended.control_kept {k n : Nat} {s u : State} (h : Appended k n s u) :
    u.pos = s.pos ∧ u.mask = s.mask ∧ u.bits = s.bits ∧ u.runState = s.runState ∧
      u.cause = s.cause ∧ u.farg = s.farg := by
  rw [h.only]; exact ⟨rfl, rfl, rfl, rfl, rfl, rfl⟩

/-- The cursor after a token: k further on, without a 32-bit wrap, and within LEN. -/
theorem Appended.cursor {k n : Nat} {s u : State} (h : Appended k n s u) :
    (u.pos + BitVec.ofNat 32 k).toNat = s.pos.toNat + k ∧ s.pos.toNat + k ≤ s.len.toNat := by
  rw [h.control_kept.1]
  exact curAdvance_toNat h.inside (h.width.imp And.left And.left)

/-! ### The invariant by STATE -/

theorem blockInv_idle_iff {s : State} (hr : s.runState = .idle) :
    BlockInv s ↔
      (s.pos = 0 ∧ s.outlen = 0 ∧ s.bits = 0 ∧ s.mask = 0 ∧ s.cause = .none ∧ s.farg = 0) ∧
        s.o = [] ∧ PayloadCanonical s := by
  constructor
  · rintro ⟨-, -, -, -, -, hidle, -, -, -, hheld, hp⟩
    obtain ⟨-, hout, -⟩ := hidle hr
    rw [OutputHeld, hout] at hheld
    exact ⟨hidle hr, List.map_eq_nil_iff.mp hheld, hp⟩
  · rintro ⟨⟨hpos, hout, hbits, hmask, hcause, hfarg⟩, ho, hp⟩
    simp [BlockInv, CauseIffFault, OutputHeld, BitVec.le_def, hr, hpos, hout, hbits, hmask, hcause,
      hfarg, ho, hp]

theorem blockInv_run_iff {s : State} (hr : s.runState = .run) :
    BlockInv s ↔
      s.pos ≤ s.len ∧ s.bits ≤ 8 ∧ OutlenInCapacity s ∧ s.mask.toNat < 2 ^ s.bits.toNat ∧
        s.cause = .none ∧ (0 < s.bits → s.bits < 8 → s.pos < s.len) ∧ s.farg = 0 ∧
        OutputBound s ∧ OutputHeld s ∧ PayloadCanonical s := by
  simp [BlockInv, CauseIffFault, FargOnlyInFault, hr]

theorem blockInv_done_iff {s : State} (hr : s.runState = .done) :
    BlockInv s ↔
      s.bits ≤ 8 ∧ OutlenInCapacity s ∧ s.cause = .none ∧ s.farg = 0 ∧ OutputBound s ∧
        OutputHeld s ∧ PayloadCanonical s := by
  simp [BlockInv, CauseIffFault, FargOnlyInFault, hr]

theorem blockInv_fault_iff {s : State} (hr : s.runState = .fault) :
    BlockInv s ↔
      s.bits ≤ 8 ∧ OutlenInCapacity s ∧ s.cause ≠ .none ∧ OutputBound s ∧ OutputHeld s ∧
        PayloadCanonical s := by
  simp [BlockInv, CauseIffFault, FargOnlyInFault, hr]

/-! ### The engine's moves keep the invariant -/

section EngineMoves

variable {s : State}

theorem blockInv_endRun (hr : s.runState = .run) (h : BlockInv s) : BlockInv (endRun s) := by
  obtain ⟨-, hbits, hcap, -, hcause, -, hfarg, hbound, hheld, hp⟩ := (blockInv_run_iff hr).mp h
  exact (blockInv_done_iff rfl).mpr ⟨hbits, hcap, hcause, hfarg, hbound, hheld, hp⟩

theorem blockInv_takeFault {c : Cause} (hc : c ≠ .none) (w : BitVec 16)
    (hr : s.runState = .run) (h : BlockInv s) : BlockInv (takeFault c w s) := by
  obtain ⟨-, hbits, hcap, -, -, -, -, hbound, hheld, hp⟩ := (blockInv_run_iff hr).mp h
  exact (blockInv_fault_iff rfl).mpr ⟨hbits, hcap, hc, hbound, hheld, hp⟩

theorem blockInv_maskFetch (flags : Byte) (hr : s.runState = .run) (hlt : s.pos < s.len)
    (h : BlockInv s) : BlockInv (loadMask flags (curAdvance 1#32 s)) := by
  obtain ⟨-, -, hcap, -, hcause, -, hfarg, hbound, hheld, hp⟩ := (blockInv_run_iff hr).mp h
  have hrem : 1 ≤ curRemaining s := by
    rw [BitVec.lt_def] at hlt; unfold curRemaining; omega
  obtain ⟨hpos, hle⟩ := curAdvance_toNat hrem (.inl rfl)
  refine (blockInv_run_iff (s := loadMask flags (curAdvance 1#32 s)) hr).mpr
    ⟨?_, BitVec.le_refl _, hcap, flags.isLt, hcause, ?_, hfarg, ?_, hheld, hp⟩
  · show s.pos + 1#32 ≤ s.len
    rw [BitVec.le_def]; omega
  · intro _ h8
    exact absurd h8 (BitVec.lt_irrefl _)
  · show s.outlen.toNat ≤ 9 * (s.pos + 1#32).toNat
    have : s.outlen.toNat ≤ 9 * s.pos.toNat := hbound
    omega

/-- Using up a flag halves the bound on MASK as it halves MASK. -/
theorem shifted_mask_lt {mask : Byte} {bits : BitVec 4} (hb : bits ≠ 0)
    (h : mask.toNat < 2 ^ bits.toNat) : (mask >>> 1).toNat < 2 ^ (bits - 1#4).toNat := by
  have hpos : bits.toNat ≠ 0 := fun h0 => hb (BitVec.eq_of_toNat_eq h0)
  have hsub : bits.toNat = (bits - 1#4).toNat + 1 := by
    have := bits.isLt
    rw [BitVec.toNat_sub]; simp; omega
  rw [hsub, Nat.pow_succ] at h
  rw [BitVec.toNat_ushiftRight, Nat.shiftRight_eq_div_pow]
  omega

theorem blockInv_token {k n : Nat} {u : State} (hr : s.runState = .run) (hb : s.bits ≠ 0)
    (hu : Appended k n s u) (h : BlockInv s) :
    BlockInv (afterToken (curAdvance (BitVec.ofNat 32 k) u)) := by
  obtain ⟨-, hbits, -, hmask, hcause, -, hfarg, hbound, hheld, hp⟩ := (blockInv_run_iff hr).mp h
  obtain ⟨hcfg, hlen, hpu, -, -, -⟩ := hu.inputsKept
  obtain ⟨-, hmu, hbu, hru, hcu, hfu⟩ := hu.control_kept
  obtain ⟨hpos, hle⟩ := hu.cursor
  have hcap' : u.outlen ≤ u.cfg.outCap := by
    rw [BitVec.le_def, hu.outlen, hcfg]; exact hu.capacity
  have hbound' : u.outlen.toNat ≤ 9 * (u.pos + BitVec.ofNat 32 k).toNat := by
    have : s.outlen.toNat ≤ 9 * s.pos.toNat := hbound
    have := hu.width
    rw [hpos, hu.outlen]; omega
  have hheld' := hu.held hheld
  have hp' : u.p.wf := by rw [hpu]; exact hp
  by_cases hend : u.pos + BitVec.ofNat 32 k = u.len
  · rw [afterToken_at_end hend]
    exact (blockInv_done_iff rfl).mpr
      ⟨hbu ▸ hbits, hcap', hcu.trans hcause, hfu.trans hfarg, hbound', hheld', hp'⟩
  · rw [afterToken_inside hend]
    have hin : u.pos + BitVec.ofNat 32 k < u.len := by
      refine BitVec.lt_of_le_ne ?_ hend
      rw [BitVec.le_def, hlen]; omega
    refine (blockInv_run_iff (s := shiftFlag (curAdvance (BitVec.ofNat 32 k) u))
      (hru.trans hr)).mpr ⟨BitVec.le_of_lt hin, ?_, hcap', ?_, hcu.trans hcause,
      fun _ _ => hin, hfu.trans hfarg, hbound', hheld', hp'⟩
    · show u.bits - 1#4 ≤ 8
      rw [hbu]; bv_omega
    · show (u.mask >>> 1).toNat < 2 ^ (u.bits - 1#4).toNat
      rw [hmu, hbu]; exact shifted_mask_lt hb hmask

theorem engineTurn_keeps_blockInv {t : State} (hi : BlockInv s) (h : engineTurn s = .next t) :
    BlockInv t := by
  rcases engineTurn_cases h with ⟨-, rfl⟩ | ⟨hr, ⟨-, rfl⟩ | ⟨-, c, w, hc, rfl⟩ |
    ⟨hlt, -, flags, rfl⟩ | ⟨-, hb, k, n, u, hu, rfl⟩⟩
  · exact hi
  · exact blockInv_endRun hr hi
  · exact blockInv_takeFault hc w hr hi
  · exact blockInv_maskFetch flags hr hlt hi
  · exact blockInv_token hr hb hu hi

end EngineMoves

/-! ### The host's moves keep the invariant -/

theorem blockInv_resetBlock (s : State) : BlockInv (resetBlock s) := by
  exact (blockInv_idle_iff rfl).mpr ⟨⟨rfl, rfl, rfl, rfl, rfl, rfl⟩, rfl, Memory.wf_nil⟩

theorem blockInv_beginRun {s : State} (h : BlockInv s) : BlockInv (beginRun s) := by
  obtain ⟨-, -, -, -, -, -, -, -, -, -, hp⟩ := h
  exact (blockInv_run_iff rfl).mpr ⟨Nat.zero_le _, Nat.zero_le _, Nat.zero_le _, Nat.one_pos,
    rfl, fun h0 => absurd h0 (BitVec.lt_irrefl 0), rfl, Nat.zero_le _, rfl, hp⟩

theorem blockInv_writeP {s : State} (a : Word) (b : Byte) (h : BlockInv s) :
    BlockInv (writeP a b s) := by
  obtain ⟨h1, h2, h3, h4, h5, h6, h7, h8, h9, h10, hp⟩ := h
  exact ⟨h1, h2, h3, h4, h5, h6, h7, h8, h9, h10, Memory.wf_write hp _ _⟩

/-- A write of LEN is harmless: in RUN it is ignored, in IDLE the cursor is at 0, and in DONE and FAULT
the invariant does not speak of LEN. -/
theorem blockInv_writeLen {s : State} (v : Word) (h : BlockInv s) : BlockInv (writeLen v s) := by
  unfold writeLen
  split
  · exact h
  · next hb =>
    have hrun : s.runState ≠ .run := by simpa [busy] using hb
    obtain ⟨-, h2, h3, h4, h5, hidle, -, h8, h9, h10, h11⟩ := h
    refine ⟨?_, h2, h3, h4, h5, hidle, fun hr => absurd hr hrun, h8, h9, h10, h11⟩
    rintro (hi | hr)
    · show s.pos ≤ v
      rw [(hidle hi).1]; exact Nat.zero_le _
    · exact absurd hr hrun

theorem hostTurn_keeps_blockInv {e : HostEvent} {s t : State} (hi : BlockInv s)
    (h : hostTurn e s = .next t) : BlockInv t := by
  rcases hostTurn_cases h with rfl | ⟨r, rfl | rfl⟩ | ⟨v, rfl⟩ | ⟨-, a, b, rfl⟩ | ⟨-, rfl⟩ |
    ⟨-, -, -, -, -, rfl⟩
  · exact hi
  · exact hi
  · exact hi
  · exact blockInv_writeLen v hi
  · exact blockInv_writeP a b hi
  · exact blockInv_resetBlock s
  · exact blockInv_beginRun hi

/-! ### The invariant obligations -/

/-- Settles O41: the invariant says nothing of the schedule, so it holds when the turn is taken off, and
both movers keep it. -/
theorem stepKeepsInv : Obligations.StepKeepsInv := by
  intro s t hi h
  have hpop : BlockInv s.popTurn := hi
  rcases step_next h with ⟨-, h⟩ | ⟨e, rest, -, h⟩
  · exact engineTurn_keeps_blockInv hpop h
  · exact hostTurn_keeps_blockInv hpop h

/-- Settles O40: the state after reset is the reset block. -/
theorem invAtReset : Obligations.InvAtReset := blockInv_resetBlock State.reset

end Sys2Proof.Machine
end

section
/-! SUPPORT. What the engine's turn leaves alone and appends, which events change STATE, and that the copy
unit's registers never reach the rest of a step. -/

namespace Sys2Proof.Machine

/-! ### Frame of the engine's turn -/

theorem engineTurn_inputsKept {s t : State} (h : engineTurn s = .next t) : InputsKept s t := by
  rcases engineTurn_cases h with ⟨-, rfl⟩ | ⟨-, ⟨-, rfl⟩ | ⟨-, c, w, -, rfl⟩ | ⟨-, -, flags, rfl⟩ |
    ⟨-, -, k, n, u, hu, rfl⟩⟩
  · exact ⟨rfl, rfl, rfl, rfl, rfl, rfl⟩
  · exact ⟨rfl, rfl, rfl, rfl, rfl, rfl⟩
  · exact ⟨rfl, rfl, rfl, rfl, rfl, rfl⟩
  · exact ⟨rfl, rfl, rfl, rfl, rfl, rfl⟩
  · simpa [InputsKept] using hu.inputsKept

/-- Settles O36: the engine's turn keeps the inputs, on the state whose schedule has lost the turn. -/
theorem engineLeavesPayloadAlone : Obligations.EngineLeavesPayloadAlone := by
  intro s t hm h
  rw [step_of_engineMoves hm] at h
  obtain ⟨hcfg, hlen, hp, -, hreply, hfree⟩ := engineTurn_inputsKept h
  exact ⟨hp, hlen, hcfg, hreply, hfree⟩

/-! ### Output of the engine's turn -/

/-- Between s and t the output grew by at most 18 bytes and kept every byte it had. -/
def OutputExtends (s t : State) : Prop :=
  s.outlen.toNat ≤ t.outlen.toNat ∧ t.outlen.toNat ≤ s.outlen.toNat + 18 ∧
    ∀ a < s.outlen.toNat, readO a t = readO a s

theorem outputExtends_of_eq {s t : State} (hl : t.outlen = s.outlen) (ho : t.o = s.o) :
    OutputExtends s t := by
  simp [OutputExtends, readO, hl, ho]

theorem Appended.outputExtends {k n : Nat} {s u : State} (h : Appended k n s u) :
    OutputExtends s u := by
  have hn := h.width
  have hl := h.outlen
  refine ⟨by omega, by omega, fun a ha => ?_⟩
  rw [readO_eq ha, readO_eq (by omega), h.frame a (.inl ha)]

theorem engineTurn_outputExtends {s t : State} (h : engineTurn s = .next t) :
    OutputExtends s t := by
  rcases engineTurn_cases h with ⟨-, rfl⟩ | ⟨-, ⟨-, rfl⟩ | ⟨-, c, w, -, rfl⟩ | ⟨-, -, flags, rfl⟩ |
    ⟨-, -, k, n, u, hu, rfl⟩⟩
  · exact outputExtends_of_eq rfl rfl
  · exact outputExtends_of_eq rfl rfl
  · exact outputExtends_of_eq rfl rfl
  · exact outputExtends_of_eq rfl rfl
  · simpa [OutputExtends, readO] using hu.outputExtends

/-- Settles O37: the engine's turn extends the output of the state whose schedule has lost the turn. -/
theorem outputBytesNeverRewritten : Obligations.OutputBytesNeverRewritten := by
  intro s t hm h
  rw [step_of_engineMoves hm] at h
  exact engineTurn_outputExtends (s := s.popTurn) h

/-! ### The events that change STATE -/

/-- The engine's turn keeps STATE, or leaves RUN to DONE or FAULT. -/
theorem engineTurn_runState {s t : State} (h : engineTurn s = .next t) :
    t.runState = s.runState ∨
      s.runState = .run ∧ (t.runState = .done ∨ t.runState = .fault) := by
  rcases engineTurn_cases h with ⟨-, rfl⟩ | ⟨hr, ⟨-, rfl⟩ | ⟨-, c, w, -, rfl⟩ | ⟨-, -, flags, rfl⟩ |
    ⟨-, -, k, n, u, hu, rfl⟩⟩
  · exact .inl rfl
  · exact .inr ⟨hr, .inl rfl⟩
  · exact .inr ⟨hr, .inr rfl⟩
  · exact .inl rfl
  · obtain ⟨-, -, -, hru, -, -⟩ := hu.control_kept
    rw [afterToken_runState]
    split
    · exact .inr ⟨hr, .inl rfl⟩
    · exact .inl hru

/-- A host event keeps STATE, resets the block to IDLE, or begins a run outside RUN. -/
theorem hostTurn_runState {e : HostEvent} {s t : State} (h : hostTurn e s = .next t) :
    t.runState = s.runState ∨
      ((e = .reset ∨ ∃ v, e = .regWrite 0 v ∧ v.getLsbD 1 = true) ∧ t.runState = .idle) ∨
      (∃ v, e = .regWrite 0 v ∧ v.getLsbD 1 = false ∧ v.getLsbD 0 = true ∧ s.runState ≠ .run ∧
        t.runState = .run) := by
  rcases hostTurn_cases h with rfl | ⟨r, rfl | rfl⟩ | ⟨v, rfl⟩ | ⟨-, a, b, rfl⟩ | ⟨he, rfl⟩ |
    ⟨v, he, h1, h0, hr, rfl⟩
  · exact .inl rfl
  · exact .inl rfl
  · exact .inl rfl
  · exact .inl (writeLen_runState v s)
  · exact .inl rfl
  · exact .inr (.inl ⟨he, rfl⟩)
  · exact .inr (.inr ⟨v, he, h1, h0, hr, rfl⟩)

/-- Settles O35: the mover of the step changes STATE only as its own law says. -/
theorem runStateTransitions : Obligations.RunStateTransitions := by
  intro s t h hne
  rcases step_next h with ⟨hm, h⟩ | ⟨e, rest, hs, h⟩
  · obtain hkept | ⟨hr, ht⟩ := engineTurn_runState h
    · exact absurd hkept hne
    · exact .inl ⟨hm, hr, ht⟩
  · rcases hostTurn_runState h with hkept | ⟨rfl | ⟨v, rfl, h1⟩, ht⟩ | ⟨v, rfl, h1, h0, hr, ht⟩
    · exact absurd hkept hne
    · exact .inr (.inr (.inr ⟨rest, hs, ht⟩))
    · exact .inr (.inl ⟨v, rest, hs, h1, ht⟩)
    · exact .inr (.inr (.inl ⟨v, rest, hs, h1, h0, hr, ht⟩))

/-! ### SRC and REM are dead between steps -/

/-- Two branchings on the same test look alike when their branches do. -/
theorem viewNext_ite {view : State → State} {c d : Prop} [Decidable c] [Decidable d]
    {a a' b b' : Host.Outcome State Fault Refusal} (hcd : c ↔ d)
    (ha : viewNext view a = viewNext view a') (hb : viewNext view b = viewNext view b') :
    viewNext view (if c then a else b) = viewNext view (if d then a' else b') := by
  by_cases hd : d
  · rwa [if_pos (hcd.mpr hd), if_pos hd]
  · rwa [if_neg (mt hcd.mp hd), if_neg hd]

section CopyUnitDead

variable (s : State)

/-- The copy unit is loaded whole before it runs, so what it held does not matter (R31). -/
theorem copyGood_withoutCopyUnit (q : Int) (n : BitVec 5) :
    copyGood q n (withoutCopyUnit s) = copyGood q n s := rfl

theorem afterToken_withoutCopyUnit :
    afterToken (withoutCopyUnit s) = withoutCopyUnit (afterToken s) := by
  by_cases hend : s.pos = s.len
  · rw [afterToken_at_end hend, afterToken_at_end (s := withoutCopyUnit s) hend]; rfl
  · rw [afterToken_inside hend, afterToken_inside (s := withoutCopyUnit s) hend]; rfl

theorem fetchBytes_withoutCopyUnit : fetchBytes (withoutCopyUnit s) = fetchBytes s := by
  rw [fetchBytes_eq, fetchBytes_eq s]; rfl

theorem writeLen_withoutCopyUnit (v : Word) :
    writeLen v (withoutCopyUnit s) = withoutCopyUnit (writeLen v s) := by
  by_cases hb : busy s
  · rw [writeLen, writeLen, if_pos hb, if_pos (show busy (withoutCopyUnit s) from hb)]
  · rw [writeLen, writeLen, if_neg hb, if_neg (show ¬ busy (withoutCopyUnit s) from hb)]; rfl

theorem execLit_withoutCopyUnit (v : Byte) :
    viewNext withoutCopyUnit (execLit v (withoutCopyUnit s)) =
      viewNext withoutCopyUnit (execLit v s) := by
  have hgood : afterToken (appendByte v (curAdvance 1 (withoutCopyUnit s))) =
      withoutCopyUnit (afterToken (appendByte v (curAdvance 1 s))) :=
    afterToken_withoutCopyUnit (appendByte v (curAdvance 1 s))
  unfold execLit
  rw [hgood]
  exact viewNext_ite Iff.rfl (viewNext_ite Iff.rfl rfl rfl) rfl

theorem copyToken_withoutCopyUnit (f : BitVec 12) (m : BitVec 4) :
    viewNext withoutCopyUnit (copyToken f m (withoutCopyUnit s)) =
      viewNext withoutCopyUnit (copyToken f m s) := by
  unfold copyToken
  refine viewNext_ite Iff.rfl (viewNext_ite Iff.rfl rfl ?_) rfl
  rw [show (withoutCopyUnit s).outlen = s.outlen from rfl]
  cases resolve f s.outlen with
  | none => rfl
  | some p => exact viewNext_ite Iff.rfl rfl (by rw [copyGood_withoutCopyUnit])

theorem exec_withoutCopyUnit (i : Instr) :
    viewNext withoutCopyUnit (exec i (withoutCopyUnit s)) =
      viewNext withoutCopyUnit (exec i s) := by
  cases i with
  | mask flags => exact viewNext_ite Iff.rfl rfl rfl
  | lit v => exact execLit_withoutCopyUnit s v
  | copy f m => exact copyToken_withoutCopyUnit s f m
  | copyD d m => exact copyToken_withoutCopyUnit s (distanceField d s.outlen) m
  | start ignored => exact viewNext_ite Iff.rfl rfl rfl
  | rst b ignored => rfl

theorem truncatedFault_withoutCopyUnit :
    viewNext withoutCopyUnit (truncatedFault (withoutCopyUnit s)) =
      viewNext withoutCopyUnit (truncatedFault s) := by
  unfold truncatedFault
  rw [show curPeekToken true (withoutCopyUnit s) = curPeekToken true s from rfl]
  cases curPeekToken true s <;> rfl

theorem runBytes_withoutCopyUnit (bytes : List Byte) :
    viewNext withoutCopyUnit (runBytes bytes (withoutCopyUnit s)) =
      viewNext withoutCopyUnit (runBytes bytes s) := by
  unfold runBytes
  rw [show selectedKind (withoutCopyUnit s) = selectedKind s from rfl]
  split
  · exact exec_withoutCopyUnit s _
  · exact truncatedFault_withoutCopyUnit s
  · rfl
  · rfl

theorem engineTurn_withoutCopyUnit :
    viewNext withoutCopyUnit (engineTurn (withoutCopyUnit s)) =
      viewNext withoutCopyUnit (engineTurn s) := by
  refine viewNext_ite Iff.rfl (viewNext_ite Iff.rfl rfl ?_) rfl
  rw [fetchBytes_withoutCopyUnit]
  cases fetchBytes s with
  | error e => rfl
  | ok bytes => exact runBytes_withoutCopyUnit s bytes

theorem hostRegRead_withoutCopyUnit (o : Nat) :
    viewNext withoutCopyUnit (hostRegRead o (withoutCopyUnit s)) =
      viewNext withoutCopyUnit (hostRegRead o s) := by
  refine viewNext_ite Iff.rfl rfl ?_
  rw [show regValue o (withoutCopyUnit s) = regValue o s from rfl]
  cases regValue o s <;> rfl

theorem hostCommand_withoutCopyUnit (v : Word) :
    viewNext withoutCopyUnit (hostCommand v (withoutCopyUnit s)) =
      viewNext withoutCopyUnit (hostCommand v s) := by
  unfold hostCommand
  split
  · exact exec_withoutCopyUnit s _
  · rfl

theorem hostRegWrite_withoutCopyUnit (o : Nat) (v : Word) :
    viewNext withoutCopyUnit (hostRegWrite o v (withoutCopyUnit s)) =
      viewNext withoutCopyUnit (hostRegWrite o v s) := by
  refine viewNext_ite Iff.rfl (hostCommand_withoutCopyUnit s v)
    (viewNext_ite Iff.rfl ?_ (viewNext_ite Iff.rfl rfl rfl))
  rw [writeLen_withoutCopyUnit]; rfl

theorem hostTurn_withoutCopyUnit (e : HostEvent) :
    viewNext withoutCopyUnit (hostTurn e (withoutCopyUnit s)) =
      viewNext withoutCopyUnit (hostTurn e s) := by
  cases e with
  | regRead o => exact hostRegRead_withoutCopyUnit s o
  | regWrite o v => exact hostRegWrite_withoutCopyUnit s o v
  | pWrite a b => exact viewNext_ite Iff.rfl rfl rfl
  | pRead a => exact viewNext_ite Iff.rfl rfl rfl
  | oRead a => exact viewNext_ite Iff.rfl rfl rfl
  | reset => rfl

/-- Clearing the copy unit before a step does not show after it: the turn is the same, and each mover's
turn is blind to the copy unit. -/
theorem step_withoutCopyUnit :
    viewNext withoutCopyUnit (step (withoutCopyUnit s)) = viewNext withoutCopyUnit (step s) := by
  unfold step
  rw [show (withoutCopyUnit s).schedule = s.schedule from rfl]
  split
  · exact engineTurn_withoutCopyUnit s
  · exact engineTurn_withoutCopyUnit s.popTurn
  · exact hostTurn_withoutCopyUnit s.popTurn _

end CopyUnitDead

/-- Settles O45: both steps look like the step from the common state with a cleared copy unit. -/
theorem copyUnitDeadBetweenSteps : Obligations.CopyUnitDeadBetweenSteps := by
  intro s1 s2 h
  rw [← step_withoutCopyUnit s1, h, step_withoutCopyUnit s2]

end Sys2Proof.Machine
end

section
/-! SUPPORT. What the host's commands and register reads answer, case by case, and what RST, Reset and START
leave in the registers. -/

namespace Sys2Proof.Machine

/-! ### The host commands -/

theorem busy_iff {s : State} : busy s = true ↔ s.runState = .run := by simp [busy]

theorem busy_eq_false {s : State} (h : s.runState ≠ .run) : busy s = false := by simp [busy, h]

theorem exec_start_outside_run {s : State} (h : s.runState ≠ .run) (ignored : BitVec 30) :
    exec (.start ignored) s = .next (beginRun s) :=
  if_neg (mt busy_iff.mp h)

theorem exec_rst (b : Bool) (ignored : BitVec 30) (s : State) :
    exec (.rst b ignored) s = .next (resetBlock s) := rfl

/-- The ignored bits of a START do not matter (R29). -/
theorem exec_start_ignored (i j : BitVec 30) (s : State) :
    exec (.start i) s = exec (.start j) s := rfl

theorem step_write_ctrl (v : Word) (s : State) :
    step (withEvent (.regWrite 0x00 v) s) = hostCommand v s := rfl

theorem hostCommand_rst {v : Word} (h : v.getLsbD 1 = true) (s : State) :
    hostCommand v s = .next (resetBlock s) := by
  rw [hostCommand, decode, decodeCtrl, if_pos h]; rfl

theorem hostCommand_start {v : Word} (h1 : v.getLsbD 1 = false) (h0 : v.getLsbD 0 = true)
    (s : State) : hostCommand v s = exec (.start 0) s := by
  rw [hostCommand, decode, decodeCtrl, if_neg (Bool.eq_false_iff.mp h1), if_pos h0]; rfl

theorem hostCommand_none {v : Word} (h1 : v.getLsbD 1 = false) (h0 : v.getLsbD 0 = false)
    (s : State) : hostCommand v s = .next s := by
  rw [hostCommand, decode, decodeCtrl, if_neg (Bool.eq_false_iff.mp h1),
    if_neg (Bool.eq_false_iff.mp h0)]

/-! ### Register reads -/

/-- A read of a register that is not in motion, or outside RUN, answers the register and changes nothing
of the block (R163). -/
theorem step_read_register {o : Nat} {w : Word} {s : State}
    (hm : movesInRun o = false ∨ s.runState ≠ .run) (hv : regValue o s = some w) :
    step (withEvent (.regRead o) s) = .next { s with reply := some (.word w) } := by
  have hnot : (movesInRun o && busy s) = false := by
    rcases hm with hm | hr
    · rw [hm]; rfl
    · rw [busy_eq_false hr, Bool.and_false]
  rw [step_withEvent, hostTurn, hostRegRead, hnot, hv]
  rfl

/-- A read of a register in motion in RUN answers a free value and changes nothing of the block (R204,
U11). -/
theorem step_read_free {o : Nat} {s : State} (hm : movesInRun o = true) (hr : s.runState = .run) :
    step (withEvent (.regRead o) s) =
      .next { s with reply := some (.word (freeRegValue o s)), freeReads := s.freeReads + 1 } := by
  rw [step_withEvent, hostTurn, hostRegRead, hm, busy_iff.mpr hr]
  rfl

theorem regValue_unassigned {o : Nat} (h : 0x1C ≤ o) (s : State) : regValue o s = some 0 := by
  have hne : ∀ r < 0x1C, o ≠ r := fun r hr => by omega
  simp [regValue, hne, h]

theorem movesInRun_unassigned {o : Nat} (h : 0x1C ≤ o) : movesInRun o = false := by
  simp [movesInRun]; omega

theorem layout_cause_lt (w : Word) : (layout 0x08 w).toNat < 4 := by
  show ((w.setWidth 2).setWidth 32).toNat < 4
  rw [BitVec.toNat_setWidth, BitVec.toNat_setWidth]; omega

theorem layout_farg_lt (w : Word) : (layout 0x18 w).toNat < 65536 := by
  show ((w.setWidth 16).setWidth 32).toNat < 65536
  rw [BitVec.toNat_setWidth, BitVec.toNat_setWidth]; omega

/-- START forgets all but the inputs of the block and the copy unit (R38). -/
theorem withoutCopyUnit_beginRun {s1 s2 : State} (h : InputsKept s1 s2) :
    withoutCopyUnit (beginRun s1) = withoutCopyUnit (beginRun s2) := by
  obtain ⟨hcfg, hlen, hp, hsched, hreply, hfree⟩ := h
  simp [withoutCopyUnit, beginRun, curInit, hcfg, hlen, hp, hsched, hreply, hfree]

/-! ### EVT -/

theorem evt_iff (s : State) : evt s = true ↔ s.runState = .done ∨ s.runState = .fault := by
  simp [evt]

/-! ### The obligations of the host port -/

/-- Settles O28: the reset state by its definition, START by its register laws. -/
theorem registersAfterResetAndStart : Obligations.RegistersAfterResetAndStart := by
  refine ⟨⟨rfl, rfl, rfl, rfl, rfl, rfl, rfl, rfl, rfl, fun _ => rfl, fun _ => rfl⟩, ?_⟩
  intro ignored s hr
  exact ⟨beginRun s, exec_start_outside_run hr ignored, rfl, rfl, rfl, rfl, rfl, rfl, rfl, rfl, rfl,
    rfl, fun _ => rfl⟩

/-- Settles O30: one law of `hostCommand` per value of the two command bits. -/
theorem ctrlWordCommands : Obligations.CtrlWordCommands := by
  intro v s
  simp only [step_write_ctrl]
  refine ⟨fun h1 => ?_, fun h1 h0 => ?_, fun h1 h0 => hostCommand_none h1 h0 s,
    step_read_register (.inl rfl) rfl⟩
  · rw [hostCommand_rst h1, hostCommand_rst (v := 2) rfl]
    exact ⟨rfl, fun b ignored => (exec_rst b ignored s).symm⟩
  · rw [hostCommand_start h1 h0, hostCommand_start (v := 1) rfl rfl]
    exact ⟨rfl, fun ignored => exec_start_ignored 0 ignored s⟩

/-- Settles O31: a read answers the register, or in RUN, for a register in motion, a free value of the
register's width. -/
theorem hostReadsRegisters : Obligations.HostReadsRegisters := by
  intro s
  refine ⟨step_read_register (.inl rfl) rfl, ⟨_, step_read_register (.inl rfl) rfl, ?_⟩,
    step_read_register (.inl rfl) rfl, fun o ho => ?_, fun hr => ?_, fun hr o ho => ?_⟩
  · cases s.runState <;> decide
  · exact step_read_register (.inl (movesInRun_unassigned ho)) (regValue_unassigned ho s)
  · refine ⟨⟨_, step_read_register (.inr hr) rfl, ?_⟩, step_read_register (.inr hr) rfl,
      step_read_register (.inr hr) rfl, step_read_register (.inr hr) rfl⟩
    cases s.cause <;> decide
  · refine ⟨freeRegValue o s, step_read_free ?_ hr, ?_, ?_⟩
    · rcases ho with rfl | rfl | rfl | rfl <;> rfl
    · rintro rfl; exact layout_cause_lt _
    · rintro rfl; exact layout_farg_lt _

/-- Settles O34: START enters RUN, RST and Reset enter IDLE, and in both EVT is 0. -/
theorem evtFollowsState : Obligations.EvtFollowsState := by
  refine ⟨evt_iff, fun s he => ?_⟩
  have hr : s.runState ≠ .run := by
    rcases (evt_iff s).mp he with h | h <;> simp [h]
  exact ⟨fun ignored => ⟨_, exec_start_outside_run hr ignored, rfl⟩,
    fun b ignored => ⟨_, exec_rst b ignored s, rfl⟩, ⟨_, step_withEvent .reset s, rfl⟩⟩

/-- Settles O44: both runs begin from `beginRun`, which keeps only the inputs and the copy unit. -/
theorem startForgetsEarlierRun : Obligations.StartForgetsEarlierRun := by
  intro ignored s1 s2 h1 h2 hin
  exact ⟨_, _, exec_start_outside_run h1 ignored, exec_start_outside_run h2 ignored,
    withoutCopyUnit_beginRun hin⟩

end Sys2Proof.Machine
end

section
/-! SUPPORT. What P holds reaches the engine's turn only through the bytes that the cursor reads, and those
lie below LEN (R51). -/

namespace Sys2Proof.Machine

/-- The state with another payload space. -/
def withPayload (p : Memory) (s : State) : State := { s with p := p }

/-! ### No operation on fetched bytes reads P -/

section PayloadUnread

variable (p : Memory) (s : State)

theorem afterToken_withPayload :
    withoutPayload (afterToken (withPayload p s)) = withoutPayload (afterToken s) := by
  by_cases hend : s.pos = s.len
  · rw [afterToken_at_end hend, afterToken_at_end (s := withPayload p s) hend]; rfl
  · rw [afterToken_inside hend, afterToken_inside (s := withPayload p s) hend]; rfl

/-- The copy loop reads O alone, so it carries P along. -/
theorem copyLoop_withPayload (k : Nat) :
    copyLoop k (withPayload p s) = (copyLoop k s).map (withPayload p) := by
  induction k generalizing s with
  | zero => rfl
  | succ k ih =>
    unfold copyLoop
    rw [show (withPayload p s).src = s.src from rfl,
      show readO s.src.toNat (withPayload p s) = readO s.src.toNat s from rfl]
    cases readO s.src.toNat s with
    | none => rfl
    | some b => exact ih (copyByte b s)

theorem copyGood_withPayload (q : Int) (n : BitVec 5) :
    viewNext withoutPayload (copyGood q n (withPayload p s)) =
      viewNext withoutPayload (copyGood q n s) := by
  have hunit : copyUnit q n (withPayload p s) = (copyUnit q n s).map (withPayload p) :=
    copyLoop_withPayload p (copyStart q n s) n.toNat
  unfold copyGood
  rw [hunit]
  cases copyUnit q n s with
  | error e => rfl
  | ok t => exact congrArg Host.Outcome.next (afterToken_withPayload p (curAdvance 2 t))

theorem copyToken_withPayload (f : BitVec 12) (m : BitVec 4) :
    viewNext withoutPayload (copyToken f m (withPayload p s)) =
      viewNext withoutPayload (copyToken f m s) := by
  unfold copyToken
  refine viewNext_ite Iff.rfl (viewNext_ite Iff.rfl rfl ?_) rfl
  rw [show (withPayload p s).outlen = s.outlen from rfl]
  cases resolve f s.outlen with
  | none => rfl
  | some q => exact viewNext_ite Iff.rfl rfl (copyGood_withPayload p s q (matchLength m))

theorem execLit_withPayload (v : Byte) :
    viewNext withoutPayload (execLit v (withPayload p s)) =
      viewNext withoutPayload (execLit v s) :=
  viewNext_ite Iff.rfl (viewNext_ite Iff.rfl rfl (congrArg Host.Outcome.next
    (afterToken_withPayload p (appendByte v (curAdvance 1 s))))) rfl

/-- An instruction's meaning has its operands and never reads P. -/
theorem exec_withPayload (i : Instr) :
    viewNext withoutPayload (exec i (withPayload p s)) = viewNext withoutPayload (exec i s) := by
  cases i with
  | mask flags => exact viewNext_ite Iff.rfl rfl rfl
  | lit v => exact execLit_withPayload p s v
  | copy f m => exact copyToken_withPayload p s f m
  | copyD d m => exact copyToken_withPayload p s (distanceField d s.outlen) m
  | start ignored => exact viewNext_ite Iff.rfl rfl rfl
  | rst b ignored => rfl

end PayloadUnread

/-! ### The cursor reads P below LEN only -/

section PayloadAgrees

variable {p : Memory} {s : State} (hp : ∀ a < s.len.toNat, p.read a = s.p.read a)
include hp

theorem curByte_withPayload (i : Nat) : curByte i (withPayload p s) = curByte i s := by
  by_cases hlt : s.pos.toNat + i < s.len.toNat
  · simp [curByte, withPayload, hp _ hlt]
  · simp [curByte, withPayload, hlt]

theorem fetchBytes_withPayload : fetchBytes (withPayload p s) = fetchBytes s := by
  rw [fetchBytes_eq, fetchBytes_eq s, curByte_withPayload hp, curByte_withPayload hp]; rfl

theorem curPeekToken_withPayload (c : Bool) :
    curPeekToken c (withPayload p s) = curPeekToken c s := by
  rw [curPeekToken, curPeekToken, curByte_withPayload hp, curByte_withPayload hp]; rfl

theorem truncatedFault_withPayload :
    viewNext withoutPayload (truncatedFault (withPayload p s)) =
      viewNext withoutPayload (truncatedFault s) := by
  unfold truncatedFault
  rw [curPeekToken_withPayload hp]
  cases curPeekToken true s <;> rfl

theorem runBytes_withPayload (bytes : List Byte) :
    viewNext withoutPayload (runBytes bytes (withPayload p s)) =
      viewNext withoutPayload (runBytes bytes s) := by
  unfold runBytes
  rw [show selectedKind (withPayload p s) = selectedKind s from rfl]
  split
  · exact exec_withPayload p s _
  · exact truncatedFault_withPayload hp
  · rfl
  · rfl

/-- A payload space that agrees below LEN gives the same turn of the engine up to P. -/
theorem engineTurn_withPayload :
    viewNext withoutPayload (engineTurn (withPayload p s)) =
      viewNext withoutPayload (engineTurn s) := by
  refine viewNext_ite Iff.rfl (viewNext_ite Iff.rfl rfl ?_) rfl
  rw [fetchBytes_withPayload hp]
  cases fetchBytes s with
  | error e => rfl
  | ok bytes => exact runBytes_withPayload hp bytes

end PayloadAgrees

/-- Settles O46: both steps are engine turns, and the engine sees P only through the cursor. -/
theorem bytesBeyondLenNeverMatter : Obligations.BytesBeyondLenNeverMatter := by
  intro s p hm hp
  rw [step_of_engineMoves (s := { s with p := p }) hm, step_of_engineMoves hm]
  exact engineTurn_withPayload (s := s.popTurn) hp

end Sys2Proof.Machine
end

section
/-! SUPPORT. The encodings both ways: a copy token's bytes and fields, and a CTRL word as the ignored bits
over the command bits, each determine the other (R81 to R88, R29). Then COPY.D as the COPY it stands for
(R92). -/

namespace Sys2Proof

/-! ### The bytes and the fields of a copy token -/

theorem rawField_of_copyBytes (f : BitVec 12) (m : BitVec 4) :
    rawField (copyLo f) (copyHi f m) = f := by
  apply BitVec.eq_of_toNat_eq
  rw [rawField_toNat, copyLo_toNat, copyHi_toNat]; omega

theorem lengthField_copyHi (f : BitVec 12) (m : BitVec 4) : lengthField (copyHi f m) = m := by
  apply BitVec.eq_of_toNat_eq
  rw [lengthField_toNat, copyHi_toNat]; omega

theorem copyLo_rawField (lo hi : Byte) : copyLo (rawField lo hi) = lo := by
  apply BitVec.eq_of_toNat_eq
  rw [copyLo_toNat, rawField_toNat]; omega

theorem copyHi_of_fields (lo hi : Byte) : copyHi (rawField lo hi) (lengthField hi) = hi := by
  apply BitVec.eq_of_toNat_eq
  rw [copyHi_toNat, rawField_toNat, lengthField_toNat]; omega

theorem copyBytes_of_fields (lo hi : Byte) :
    copyBytes (rawField lo hi) (lengthField hi) = [lo, hi] := by
  rw [copyBytes, copyLo_rawField, copyHi_of_fields]

theorem decodePayload_copyBytes (f : BitVec 12) (m : BitVec 4) :
    decodePayload .copy (copyBytes f m) = .ok (.copy f m, []) := by
  rw [copyBytes, decodePayload, rawField_of_copyBytes, lengthField_copyHi]

/-- The encoding of a payload item that was decoded is the bytes it was decoded from. -/
theorem encode_of_decodePayload {k : ItemKind} {bytes rest : List Byte} {i : Instr}
    (h : decodePayload k bytes = .ok (i, rest)) (n : Word) :
    ∃ used, encode n i = .payload k used ∧ bytes = used ++ rest := by
  cases k with
  | mask =>
    cases bytes with
    | nil => cases h
    | cons b tail => cases h; exact ⟨[b], rfl, rfl⟩
  | lit =>
    cases bytes with
    | nil => cases h
    | cons b tail => cases h; exact ⟨[b], rfl, rfl⟩
  | copy =>
    match bytes, h with
    | lo :: hi :: tail, rfl =>
      exact ⟨[lo, hi], congrArg (Encoded.payload .copy) (copyBytes_of_fields lo hi), rfl⟩

/-! ### The ignored bits and the command bits of a CTRL word -/

/-- A CTRL word by its parts: bits 31:2, which are ignored, over the two command bits (R29). -/
def ctrlWord (ignored : BitVec 30) (command : BitVec 2) : Word := ignored ++ command

theorem eq_ctrlWord (v : Word) : v = ctrlWord (v.extractLsb' 2 30) (v.extractLsb' 0 2) :=
  (BitVec.extractLsb'_append_extractLsb' (w := 30) (len := 2) (x := v)).symm

theorem ctrlWord_eq_shiftLeft_or (ignored : BitVec 30) (command : BitVec 2) :
    ctrlWord ignored command = ignored.setWidth 32 <<< 2 ||| command.setWidth 32 := by
  rw [ctrlWord, BitVec.append_def, BitVec.shiftLeftZeroExtend_eq, BitVec.setWidth'_eq]

theorem encode_start (n : Word) (ignored : BitVec 30) :
    encode n (.start ignored) = .ctrl (ctrlWord ignored 0b01) := by
  rw [ctrlWord_eq_shiftLeft_or]; rfl

theorem encode_rst (n : Word) (startBit : Bool) (ignored : BitVec 30) :
    encode n (.rst startBit ignored) =
      .ctrl (ctrlWord ignored (if startBit then 0b11 else 0b10)) := by
  rw [ctrlWord_eq_shiftLeft_or]; cases startBit <;> rfl

theorem decodeCtrl_ctrlWord (ignored : BitVec 30) (command : BitVec 2) :
    decodeCtrl (ctrlWord ignored command) =
      if command.getLsbD 1 then .ok (.rst (command.getLsbD 0) ignored, [])
      else if command.getLsbD 0 then .ok (.start ignored, []) else .error .noCommand := by
  have hcommand : ∀ j < 2, (ctrlWord ignored command).getLsbD j = command.getLsbD j := fun j hj => by
    rw [ctrlWord, BitVec.getLsbD_append, if_pos hj]
  have hignored : (ctrlWord ignored command).extractLsb' 2 30 = ignored :=
    BitVec.extractLsb'_append_eq_left
  rw [decodeCtrl, hcommand 0 (by omega), hcommand 1 (by omega), hignored]

/-- The encoding of a command that was decoded is the word it was decoded from. -/
theorem encode_of_decodeCtrl {v : Word} {rest : List Byte} {i : Instr}
    (h : decodeCtrl v = .ok (i, rest)) (n : Word) : encode n i = .ctrl v ∧ rest = [] := by
  rw [eq_ctrlWord v] at h ⊢
  generalize v.extractLsb' 2 30 = ignored at h ⊢
  generalize v.extractLsb' 0 2 = command at h ⊢
  rw [decodeCtrl_ctrlWord] at h
  have hcommand : ∀ c : BitVec 2, c = 0 ∨ c = 1 ∨ c = 2 ∨ c = 3 := by decide
  rcases hcommand command with rfl | rfl | rfl | rfl
  · cases h
  · cases h; exact ⟨encode_start n ignored, rfl⟩
  · cases h; exact ⟨encode_rst n false ignored, rfl⟩
  · cases h; exact ⟨encode_rst n true ignored, rfl⟩

/-! ### The encoding obligations -/

/-- Settles O2: one decoding law per form of encoding, a byte, a copy's two bytes, a CTRL word. -/
theorem decodeEncodeRoundTrip : Obligations.DecodeEncodeRoundTrip := by
  intro n i
  cases i with
  | mask flags => exact ⟨rfl, fun _ => rfl⟩
  | lit v => exact ⟨rfl, fun _ => rfl⟩
  | copy f m => exact ⟨decodePayload_copyBytes f m, fun _ => rfl⟩
  | copyD d m =>
    exact ⟨decodePayload_copyBytes (distanceField d n) m, fun hne => absurd rfl (hne d m)⟩
  | start ignored =>
    refine ⟨?_, fun _ => rfl⟩
    rw [encode_start]
    exact decodeCtrl_ctrlWord ignored 0b01
  | rst startBit ignored =>
    refine ⟨?_, fun _ => rfl⟩
    rw [encode_rst]
    cases startBit
    · exact decodeCtrl_ctrlWord ignored 0b10
    · exact decodeCtrl_ctrlWord ignored 0b11

/-- Settles O3: payload items by the bytes of their fields, commands by the parts of the CTRL word. -/
theorem encodeDecodeRoundTrip : Obligations.EncodeDecodeRoundTrip :=
  ⟨fun n _ _ _ _ h => encode_of_decodePayload h n, fun n _ _ _ h => encode_of_decodeCtrl h n,
    fun _ _ => ⟨rfl, rfl⟩, fun lo hi _ => ⟨rawField lo hi, lengthField hi, rfl⟩⟩

/-- Settles O1: ten closed words, decoded by evaluation. -/
theorem encodedWordsDecode : Obligations.EncodedWordsDecode := by
  unfold Obligations.EncodedWordsDecode; decide

end Sys2Proof

namespace Sys2Proof.Machine

/-- Settles O4: each operand by its law as a number. -/
theorem copyOperandsFromBytes : Obligations.CopyOperandsFromBytes := by
  intro lo hi
  have hlength : (matchLength (lengthField hi)).toNat = hi.toNat % 16 + 3 := by
    rw [matchLength_toNat, lengthField_toNat]
  exact ⟨hlength, rawField_toNat lo hi, by rw [biasedField_toNat, rawField_toNat],
    matchLength_range (lengthField hi)⟩

/-! ### COPY.D and the COPY it stands for -/

theorem distanceField_toNat (d : BitVec 12) (n : Word) :
    ((distanceField d n).toNat : Int) = (((n.toNat : Int) - d.toNat) % 4096 - 18) % 4096 := by
  have hd := d.isLt
  rw [distanceField, BitVec.toNat_sub, BitVec.toNat_sub, BitVec.toNat_setWidth, BitVec.toNat_ofNat]
  omega

theorem resolve_of_corrected {f : BitVec 12} {n : Word} {p : Int} (h : corrected f n = p)
    (h0 : 0 ≤ p) (h1 : p < n.toNat) : resolve f n = some p := by
  rw [resolve, h, if_neg (by omega)]

/-- The field of COPY.D resolves to the position d behind the end of the output (R92). -/
theorem resolve_distanceField {d : BitVec 12} {n : Word} (h1 : 1 ≤ d.toNat)
    (hn : d.toNat ≤ n.toNat) :
    resolve (distanceField d n) n = some ((n.toNat : Int) - d.toNat) := by
  have hf := distanceField_toNat d n
  have hd := d.isLt
  refine resolve_of_corrected ?_ (by omega) (by omega)
  rw [corrected_eq]
  split <;> omega

/-- Settles O5: the COPY with the expanded field, its number and its resolution. -/
theorem copyDStandsForCopy : Obligations.CopyDStandsForCopy := by
  intro d m s h1 hn
  exact ⟨distanceField d s.outlen, distanceField_toNat d s.outlen, rfl, rfl, copyLo_toNat _,
    copyHi_toNat _ m, resolve_distanceField h1 hn⟩

end Sys2Proof.Machine
end

section
/-! SUPPORT. What a copy token whose source lies d behind the end of the output does when it raises no
fault (R135, R148), and the flags that the tokens of a group use up (R119, R120). -/

namespace Sys2Proof.Machine

/-! ### The closed form of a copy -/

/-- O of t is O of s with n bytes appended, the i-th a repetition with period d of the last d bytes of s
(R148). -/
def CopiedFrom (d n : Nat) (s t : State) : Prop :=
  (∀ a < s.outlen.toNat, readO a t = readO a s) ∧
    (∀ i < n, readO (s.outlen.toNat + i) t = readO (s.outlen.toNat - d + i % d) s) ∧
    t.outlen.toNat = s.outlen.toNat + n

/-- The copy loop in closed form: an appended byte whose source was itself appended has, by the ordered
copy, the byte d places before it. -/
theorem copyLoop_copiedFrom {k d : Nat} {s t : State} (h : copyLoop k s = .ok t)
    (hw : s.outlen.toNat + k < 2 ^ 32) (hd : 1 ≤ d) (hsrc : s.src.toNat + d = s.outlen.toNat) :
    CopiedFrom d k s t := by
  obtain ⟨hlen, hframe⟩ := copyLoop_appends h hw
  have hcopies := copyLoop_copies h hw (by omega)
  have hclosed : ∀ i < k, t.o.read (s.outlen.toNat + i) =
      s.o.read (s.outlen.toNat - d + i % d) := by
    intro i
    induction i using Nat.strong_induction_on with
    | _ i ih =>
      intro hi
      rw [hcopies i hi]
      rcases Nat.lt_or_ge i d with hlt | hge
      · rw [Nat.mod_eq_of_lt hlt, hframe _ (by omega)]
        congr 1; omega
      · rw [Nat.mod_eq_sub_mod hge, ← ih (i - d) (by omega) (by omega)]
        congr 1; omega
  refine ⟨fun a ha => ?_, fun i hi => ?_, hlen⟩
  · rw [readO_eq ha, readO_eq (by omega), hframe a (.inl ha)]
  · have := Nat.mod_lt i hd
    rw [readO_eq (by omega), readO_eq (by omega), hclosed i hi]

/-- The copy unit with a source d behind the end of a written output. -/
theorem copyUnit_copiedFrom {d : Nat} {n : BitVec 5} {s : State} (hd : 1 ≤ d)
    (hdn : d ≤ s.outlen.toNat) (hw : s.outlen.toNat + n.toNat < 2 ^ 32)
    (ho : ∀ a < s.outlen.toNat, (s.o.read a).isSome) :
    ∃ u, copyUnit ((s.outlen.toNat : Int) - d) n s = .ok u ∧ CopiedFrom d n.toNat s u ∧
      u = { s with o := u.o, outlen := u.outlen, src := u.src, rem := u.rem } := by
  have hsrc := copyStart_src_toNat (p := (s.outlen.toNat : Int) - d) (n := n) (s := s)
    (by omega) (by omega)
  obtain ⟨u, hu⟩ := copyLoop_succeeds (k := n.toNat)
    (s := copyStart ((s.outlen.toNat : Int) - d) n s) hw
    (by rw [hsrc, copyStart_outlen]; omega) ho
  exact ⟨u, hu, copyLoop_copiedFrom (s := copyStart _ n s) hu hw hd
    (by rw [hsrc, copyStart_outlen]; omega), copyLoop_only (s := copyStart _ n s) hu⟩

/-- What a copy token of n bytes from distance d leaves behind when it completes: the bytes, the moved
cursor, the after-token rule, and all else as before (R135, R148). -/
def CopyDone (d n : Nat) (s t : State) : Prop :=
  CopiedFrom d n s t ∧ t.pos = s.pos + 2 ∧ EndedOrShifted s t ∧ InputsKept s t ∧
    t.cause = s.cause ∧ t.farg = s.farg

/-- A copy that is due, resolves to distance d, fits and finds the output written completes. -/
theorem copyToken_completes {d : Nat} {f : BitVec 12} {m : BitVec 4} {s : State}
    (hrun : s.runState = .run) (hbits : 0 < s.bits) (hflag : s.mask.getLsbD 0 = false)
    (hrem : 2 ≤ curRemaining s) (hres : resolve f s.outlen = some ((s.outlen.toNat : Int) - d))
    (hcap : s.outlen.toNat + (m.toNat + 3) ≤ s.cfg.outCap.toNat)
    (ho : ∀ a < s.outlen.toNat, (s.o.read a).isSome) :
    ∃ t, copyToken f m s = .next t ∧ CopyDone d (m.toNat + 3) s t := by
  have hsel : selected .copy s = true :=
    (selected_iff _ _).mpr ⟨hrun, pos_lt_of_remaining hrem, selectedKind_copy hbits hflag⟩
  have hfits : ¬ exceedsCap (matchLength m).toNat s = true := by
    rw [exceedsCap_iff, matchLength_toNat]; omega
  obtain ⟨hlow, hhigh⟩ := resolve_bounds hres
  have hcapLt := s.cfg.outCap.isLt
  obtain ⟨u, hu, hcopied, honly⟩ :=
    copyUnit_copiedFrom (d := d) (n := matchLength m) (s := s) (by omega) (by omega)
      (by rw [matchLength_toNat]; omega) ho
  rw [matchLength_toNat] at hcopied
  refine ⟨afterToken (curAdvance 2 u), ?_, ?_⟩
  · rw [copyToken, if_pos hsel, if_neg (by omega), hres]
    simp only
    rw [if_neg hfits, copyGood, hu]
  · have hended : EndedOrShifted s (afterToken (curAdvance 2 u)) := by
      apply afterToken_endedOrShifted <;> rw [honly]
      · exact hrun
      all_goals rfl
    have hinputs : InputsKept s u := by rw [honly]; exact ⟨rfl, rfl, rfl, rfl, rfl, rfl⟩
    obtain ⟨hpos, hcause, hfarg⟩ : u.pos = s.pos ∧ u.cause = s.cause ∧ u.farg = s.farg := by
      rw [honly]; exact ⟨rfl, rfl, rfl⟩
    refine ⟨?_, ?_, hended, ?_, ?_, ?_⟩
    · simpa [CopiedFrom, readO] using hcopied
    · simp [hpos]
    · simpa [InputsKept] using hinputs
    · simpa using hcause
    · simpa using hfarg

/-- Settles O11: COPY.D is the copy token whose field resolves to distance d. -/
theorem copyDTokenCompletes : Obligations.CopyDTokenCompletes := by
  intro d m s hrun hbits hflag hrem h1 hd hcap ho
  obtain ⟨t, ht, ⟨hkept, hcopied, hlen⟩, hrest⟩ :=
    copyToken_completes hrun hbits hflag hrem (resolve_distanceField h1 hd) hcap ho
  exact ⟨t, ht, hkept, hcopied, hlen, hrest⟩

/-! ### The flags of a group -/

theorem flagsUsed_of_execMask {flags : Byte} {s t : State} (h : execMask flags s = .next t) :
    FlagsUsed flags 0 t := by
  unfold execMask at h
  split at h
  · cases h; exact ⟨(BitVec.ushiftRight_zero flags).symm, rfl⟩
  · cases h

theorem nextFlag_of_flagsUsed {flags : Byte} {k : Nat} {s : State} (h : FlagsUsed flags k s) :
    s.mask.getLsbD 0 = flags.getLsbD k := by
  rw [h.1, BitVec.getLsbD_ushiftRight, Nat.add_zero]

theorem flagsUsed_shiftFlag {flags : Byte} {k : Nat} {s : State} (hk : k < 8)
    (h : FlagsUsed flags k s) : FlagsUsed flags (k + 1) (shiftFlag s) := by
  obtain ⟨hmask, hbits⟩ := h
  refine ⟨?_, ?_⟩
  · rw [shiftFlag_mask, hmask, BitVec.shiftRight_add]
  · rw [shiftFlag_bits, BitVec.toNat_sub, hbits, BitVec.toNat_ofNat]; omega

/-- A turn that stays in RUN with flags left is a token inside the payload: it uses one flag. -/
theorem flagsUsed_engineTurn {flags : Byte} {k : Nat} {s t : State} (hk : k < 8)
    (hf : FlagsUsed flags k s) (hr : s.runState = .run) (h : engineTurn s = .next t)
    (ht : t.runState = .run) : FlagsUsed flags (k + 1) t := by
  obtain ⟨hmask, hcount⟩ := hf
  have hbits : s.bits ≠ 0 := fun h0 => by
    simp [h0] at hcount; omega
  rcases engineTurn_cases h with ⟨hnot, -⟩ | ⟨-, ⟨-, rfl⟩ | ⟨-, c, w, -, rfl⟩ | ⟨-, h0, -⟩ |
    ⟨-, -, j, n, u, hu, rfl⟩⟩
  · exact absurd hr hnot
  · cases ht
  · cases ht
  · exact absurd h0 hbits
  · obtain ⟨-, hmaskKept, hbitsKept, -⟩ := hu.control_kept
    by_cases hend : (curAdvance (BitVec.ofNat 32 j) u).pos = (curAdvance (BitVec.ofNat 32 j) u).len
    · rw [afterToken_at_end hend] at ht; cases ht
    · rw [afterToken_inside hend]
      refine flagsUsed_shiftFlag hk ⟨?_, ?_⟩
      · rw [curAdvance_mask, hmaskKept, hmask]
      · rw [curAdvance_bits, hbitsKept, hcount]

/-- Settles O25: the fetch uses no flag, the next flag is the lowest unused bit, and each token in RUN uses
one flag. -/
theorem maskFlagsInOrder : Obligations.MaskFlagsInOrder := by
  refine ⟨fun _ _ _ h => flagsUsed_of_execMask h, fun flags k s hk hf => ⟨nextFlag_of_flagsUsed hf, ?_⟩⟩
  intro t hm hr h ht
  rw [step_of_engineMoves hm] at h
  exact flagsUsed_engineTurn (s := s.popTurn) hk hf hr h ht

end Sys2Proof.Machine
end

section
/-! SUPPORT. What the engine's turn does to the cursor (R104 to R109): which bytes a turn reads through it
and runs as operands, and how far POS stands from LEN when the turn is over. -/

namespace Sys2Proof.Machine

/-! ### POS after a turn in RUN -/

/-- The turn ended or faulted where the cursor stood: DONE at the end of the payload, FAULT before it. -/
def RestedAt (s t : State) : Prop :=
  t.pos = s.pos ∧ (t.runState = .done ∧ s.pos = s.len ∨ t.runState = .fault ∧ s.pos < s.len)

/-- The turn consumed k bytes inside the payload and stayed in RUN, or ended with the last byte. -/
def Consumed (k : Nat) (s t : State) : Prop :=
  t.pos.toNat = s.pos.toNat + k ∧ s.pos.toNat + k ≤ s.len.toNat ∧
    (t.runState = .run ∨ t.runState = .done ∧ t.pos = s.len)

theorem consumed_maskFetch {flags : Byte} {s : State} (hr : s.runState = .run)
    (hlt : s.pos < s.len) : Consumed 1 s (loadMask flags (curAdvance 1#32 s)) := by
  have hrem : 1 ≤ curRemaining s := by
    rw [BitVec.lt_def] at hlt; unfold curRemaining; omega
  obtain ⟨hpos, hle⟩ := curAdvance_toNat hrem (.inl rfl)
  exact ⟨hpos, hle, .inl hr⟩

theorem Appended.consumed {k n : Nat} {s u : State} (h : Appended k n s u)
    (hr : s.runState = .run) :
    Consumed k s (afterToken (curAdvance (BitVec.ofNat 32 k) u)) := by
  obtain ⟨hpos, hle⟩ := h.cursor
  obtain ⟨-, hlen, -⟩ := h.inputsKept
  obtain ⟨-, -, -, hru, -⟩ := h.control_kept
  refine ⟨by simpa using hpos, hle, ?_⟩
  rw [afterToken_runState, afterToken_pos, curAdvance_len, hlen]
  split
  · next hend => exact .inr ⟨rfl, hend⟩
  · exact .inl (hru.trans hr)

/-- A turn in RUN rests where the cursor stands or consumes one or two bytes (R107). -/
theorem engineTurn_cursor {s t : State} (hr : s.runState = .run) (h : engineTurn s = .next t) :
    RestedAt s t ∨ ∃ k, (k = 1 ∨ k = 2) ∧ Consumed k s t := by
  rcases engineTurn_cases h with ⟨hnot, -⟩ | ⟨-, ⟨hend, rfl⟩ | ⟨hlt, c, w, -, rfl⟩ |
    ⟨hlt, -, flags, rfl⟩ | ⟨-, -, k, n, u, hu, rfl⟩⟩
  · exact absurd hr hnot
  · exact .inl ⟨rfl, .inl ⟨rfl, hend⟩⟩
  · exact .inl ⟨rfl, .inr ⟨rfl, hlt⟩⟩
  · exact .inr ⟨1, .inl rfl, consumed_maskFetch hr hlt⟩
  · exact .inr ⟨k, hu.width.imp And.left And.left, hu.consumed hr⟩

/-- Settles O38: a turn that rests leaves RUN, and one that consumes moves POS on, within LEN. -/
theorem cursorMovesForward : Obligations.CursorMovesForward := by
  intro s t hm hr h
  rw [step_of_engineMoves hm] at h
  rcases engineTurn_cursor (s := s.popTurn) hr h with ⟨hpos, hover⟩ | ⟨k, hk, hpos, hle, -⟩
  · refine ⟨.inl hpos, fun hne => absurd hpos hne, fun ht => ?_⟩
    rcases hover with ⟨hdone, -⟩ | ⟨hfault, -⟩
    · rw [hdone] at ht; cases ht
    · rw [hfault] at ht; cases ht
  · rw [popTurn_pos] at hpos hle
    rw [popTurn_len] at hle
    refine ⟨.inr ?_, fun _ => ?_, fun _ => ?_⟩
    · rcases hk with rfl | rfl
      · exact .inl hpos
      · exact .inr hpos
    · rw [BitVec.le_def]; omega
    · rw [BitVec.lt_def]; omega

/-- Settles O39: DONE is entered by END or by a token that consumed the last byte, FAULT only by a turn
that rests before the end. -/
theorem doneMeansPayloadConsumed : Obligations.DoneMeansPayloadConsumed := by
  intro s t hm hr h
  rw [step_of_engineMoves hm] at h
  obtain ⟨-, hlen, -⟩ := engineTurn_inputsKept h
  rw [hlen]
  rcases engineTurn_cursor (s := s.popTurn) hr h with
    ⟨hpos, ⟨hst, hend⟩ | ⟨hst, hlt⟩⟩ | ⟨k, -, -, -, hst | ⟨hst, hend⟩⟩
  · exact ⟨fun _ => hpos.trans hend, by simp [hst]⟩
  · exact ⟨by simp [hst], fun _ => hpos ▸ hlt⟩
  · exact ⟨by simp [hst], by simp [hst]⟩
  · exact ⟨fun _ => hend, by simp [hst]⟩

/-! ### The bytes that the cursor reads -/

theorem curByte_eq_ok {i : Nat} {b : Byte} {s : State} (hlt : s.pos.toNat + i < s.len.toNat)
    (hb : s.p.read (s.pos.toNat + i) = some b) : curByte i s = .ok b := by
  rw [curByte, if_pos hlt, hb]

theorem curNext1_eq_ok {b : Byte} {s : State} (h : curByte 0 s = .ok b) :
    curNext1 s = .ok (b, curAdvance 1 s) := by
  rw [curNext1, h]

theorem curNext2_eq_ok {lo hi : Byte} {s : State} (h0 : curByte 0 s = .ok lo)
    (h1 : curByte 1 s = .ok hi) : curNext2 s = .ok ((lo, hi), curAdvance 2 s) := by
  rw [curNext2, h0, h1]

theorem fetchBytes_one {b : Byte} {s : State} (hk : selectedKind s ≠ .copy)
    (h : curByte 0 s = .ok b) : fetchBytes s = .ok [b] := by
  rw [fetchBytes, if_neg fun hc => hk hc.1, curNext1_eq_ok h]

theorem fetchBytes_two {lo hi : Byte} {s : State} (hk : selectedKind s = .copy)
    (hrem : 2 ≤ curRemaining s) (h0 : curByte 0 s = .ok lo) (h1 : curByte 1 s = .ok hi) :
    fetchBytes s = .ok [lo, hi] := by
  rw [fetchBytes, if_pos ⟨hk, hrem⟩, curNext2_eq_ok h0 h1]

/-! ### The turn runs what it fetched -/

/-- In RUN, before the end of the payload, the turn is the meaning of the instruction that the fetched
bytes decode to (R115). -/
theorem engineTurn_of_fetch {bytes rest : List Byte} {i : Instr} {s : State}
    (hr : s.runState = .run) (hne : s.pos ≠ s.len) (hf : fetchBytes s = .ok bytes)
    (hd : decode (.payload (selectedKind s) bytes) = .ok (i, rest)) :
    engineTurn s = exec i s := by
  have hend : ¬ curAtEnd s = true := by simpa [curAtEnd] using hne
  rw [engineTurn, if_pos (busy_iff.mpr hr), engineStep, if_neg hend, hf]
  simp only [runBytes, hd]

theorem engineTurn_mask {b : Byte} {s : State} (hr : s.runState = .run) (hlt : s.pos < s.len)
    (hb : curByte 0 s = .ok b) (hbits : s.bits = 0) : engineTurn s = exec (.mask b) s := by
  have hk := selectedKind_mask hbits
  exact engineTurn_of_fetch hr (BitVec.ne_of_lt hlt) (fetchBytes_one (by simp [hk]) hb)
    (by rw [hk]; rfl)

theorem engineTurn_lit {b : Byte} {s : State} (hr : s.runState = .run) (hlt : s.pos < s.len)
    (hb : curByte 0 s = .ok b) (hbits : 0 < s.bits) (hflag : s.mask.getLsbD 0 = true) :
    engineTurn s = exec (.lit b) s := by
  have hk := selectedKind_lit hbits hflag
  exact engineTurn_of_fetch hr (BitVec.ne_of_lt hlt) (fetchBytes_one (by simp [hk]) hb)
    (by rw [hk]; rfl)

theorem engineTurn_copy {lo hi : Byte} {s : State} (hr : s.runState = .run)
    (hrem : 2 ≤ curRemaining s) (h0 : curByte 0 s = .ok lo) (h1 : curByte 1 s = .ok hi)
    (hbits : 0 < s.bits) (hflag : s.mask.getLsbD 0 = false) :
    engineTurn s = exec (.copy (rawField lo hi) (lengthField hi)) s := by
  have hk := selectedKind_copy hbits hflag
  exact engineTurn_of_fetch hr (BitVec.ne_of_lt (pos_lt_of_remaining hrem))
    (fetchBytes_two hk hrem h0 h1) (by rw [hk]; rfl)

/-! ### What the items do with the bytes -/

theorem exec_mask_selected {b : Byte} {s : State} (hr : s.runState = .run) (hlt : s.pos < s.len)
    (hbits : s.bits = 0) : exec (.mask b) s = .next (loadMask b (curAdvance 1 s)) :=
  if_pos ((selected_iff _ _).mpr ⟨hr, hlt, selectedKind_mask hbits⟩)

theorem exec_lit_fits {b : Byte} {s : State} (hr : s.runState = .run) (hlt : s.pos < s.len)
    (hbits : 0 < s.bits) (hflag : s.mask.getLsbD 0 = true)
    (hcap : s.outlen.toNat + 1 ≤ s.cfg.outCap.toNat) :
    exec (.lit b) s = .next (afterToken (appendByte b (curAdvance 1 s))) := by
  have hsel := (selected_iff .lit s).mpr ⟨hr, hlt, selectedKind_lit hbits hflag⟩
  have hfits : ¬ exceedsCap 1 s = true := by rw [exceedsCap_iff]; omega
  exact (if_pos hsel).trans (if_neg hfits)

theorem readO_afterToken (a : Nat) (s : State) : readO a (afterToken s) = readO a s := by
  simp [readO]

theorem readO_appendByte_end {b : Byte} {s : State} (h : s.outlen.toNat + 1 < 2 ^ 32) :
    readO s.outlen.toNat (appendByte b s) = some b := by
  have hlen := outlen_add_one h
  rw [readO_eq (by rw [appendByte_outlen]; omega), appendByte_o, Memory.read_write_same]

/-- A field whose distance lies inside the output resolves to that distance from its end (R147). -/
theorem resolve_copyDistance {f : BitVec 12} {n : Word} (h1 : 1 ≤ copyDistance f n)
    (hn : copyDistance f n ≤ n.toNat) :
    resolve f n = some ((n.toNat : Int) - copyDistance f n) := by
  have hd : (copyDistance f n : Int) =
      ((n.toNat : Int) - ((f.toNat + 18) % 4096 : Nat)) % 4096 := by
    rw [copyDistance, biasedField_toNat, windowSize]; omega
  refine resolve_of_corrected ?_ (by omega) (by omega)
  rw [corrected_eq]
  split <;> omega

/-! ### The cursor obligation -/

/-- At a group boundary the byte at POS becomes the mask (R104, R116). -/
theorem engineTurn_loads_mask {b : Byte} {s : State} (hr : s.runState = .run)
    (hlt : s.pos < s.len) (hb : curByte 0 s = .ok b) (hbits : s.bits = 0) :
    ∃ t, engineTurn s = .next t ∧ t.mask = b ∧ t.pos = s.pos + 1 := by
  rw [engineTurn_mask hr hlt hb hbits, exec_mask_selected hr hlt hbits]
  exact ⟨_, rfl, rfl, rfl⟩

/-- Where the flag says literal and the output has room, the byte at POS is appended (R104, R130). -/
theorem engineTurn_appends_literal {b : Byte} {s : State} (hr : s.runState = .run)
    (hlt : s.pos < s.len) (hb : curByte 0 s = .ok b) (hbits : 0 < s.bits)
    (hflag : s.mask.getLsbD 0 = true) (hcap : s.outlen.toNat + 1 ≤ s.cfg.outCap.toNat) :
    ∃ t, engineTurn s = .next t ∧ readO s.outlen.toNat t = some b ∧ t.pos = s.pos + 1 := by
  rw [engineTurn_lit hr hlt hb hbits hflag, exec_lit_fits hr hlt hbits hflag hcap]
  refine ⟨_, rfl, ?_, by simp⟩
  have := s.cfg.outCap.isLt
  rw [readO_afterToken]
  exact readO_appendByte_end (s := curAdvance 1 s) (by rw [curAdvance_outlen]; omega)

/-- Settles O27: the bytes that the cursor reads at POS are the operands of the turn, and the item moves
POS to where the cursor stands after them. -/
theorem cursorReadsInOrder : Obligations.CursorReadsInOrder := by
  constructor
  · intro s b hm hr hlt hb
    have hlt' := BitVec.lt_def.mp hlt
    have h0 : curByte 0 s = .ok b := curByte_eq_ok hlt' hb
    obtain ⟨hpos, -⟩ := curAdvance_toNat (s := s) (k := 1) (by unfold curRemaining; omega) (.inl rfl)
    rw [step_of_engineMoves hm]
    exact ⟨_, curNext1_eq_ok h0, hpos, engineTurn_loads_mask (s := s.popTurn) hr hlt h0,
      engineTurn_appends_literal (s := s.popTurn) hr hlt h0⟩
  · intro s lo hi hm hr hbits hflag hrem hlo hhi
    have hend : s.pos.toNat + 1 < s.len.toNat := by unfold curRemaining at hrem; omega
    have h0 : curByte 0 s = .ok lo := curByte_eq_ok (by omega) hlo
    have h1 : curByte 1 s = .ok hi := curByte_eq_ok hend hhi
    have hstep : step s = exec (.copy (rawField lo hi) (lengthField hi)) s.popTurn := by
      rw [step_of_engineMoves hm]
      exact engineTurn_copy (s := s.popTurn) hr hrem h0 h1 hbits hflag
    obtain ⟨hpos, -⟩ := curAdvance_toNat hrem (.inr rfl)
    refine ⟨_, curNext2_eq_ok h0 h1, hpos, hstep, fun hd hdn hcap ho => ?_⟩
    rw [hstep]
    rw [← lengthField_toNat] at hcap ⊢
    obtain ⟨t, ht, ⟨-, hcopied, -⟩, htpos, -⟩ :=
      copyToken_completes (s := s.popTurn) hr hbits hflag hrem (resolve_copyDistance hd hdn) hcap ho
    exact ⟨t, ht, htpos, hcopied⟩

end Sys2Proof.Machine
end

section
/-! SUPPORT. The dispatcher (R115 to R118): what the engine's turn runs at POS, that it ends at LEN and
rests outside RUN, and the frame of the payload items. -/

namespace Sys2Proof.Machine

/-! ### The turn at the end of the payload and outside RUN -/

theorem engineTurn_at_end {s : State} (hr : s.runState = .run) (hend : s.pos = s.len) :
    engineTurn s = .next (endRun s) := by
  have hc : curAtEnd s = true := by simp [curAtEnd, hend]
  rw [engineTurn, if_pos (busy_iff.mpr hr), engineStep, if_pos hc]

theorem engineTurn_outside_run {s : State} (hr : s.runState ≠ .run) : engineTurn s = .next s :=
  if_neg (mt busy_iff.mp hr)

theorem popTurn_of_cons {s : State} {turn : Turn} {rest : List Turn}
    (h : s.schedule = turn :: rest) : s.popTurn = { s with schedule := rest } := by
  rw [State.popTurn, h]; rfl

/-- Settles O23: at POS = LEN the engine's turn is END, on the state whose schedule has lost the turn. -/
theorem engineEndsRunAtPayloadEnd : Obligations.EngineEndsRunAtPayloadEnd := by
  intro s hm hr hend
  rw [step_of_engineMoves hm]
  exact engineTurn_at_end (s := s.popTurn) hr hend

/-- Settles O24: outside RUN the engine's turn answers the state it is given. -/
theorem engineRestsOutsideRun : Obligations.EngineRestsOutsideRun := by
  intro s hr
  refine ⟨fun hs => ?_, fun rest hs => ?_⟩
  · rw [step_empty hs, engineTurn_outside_run hr]
  · rw [step_engine hs, engineTurn_outside_run (s := s.popTurn) hr, popTurn_of_cons hs]

/-! ### The turn runs the item at POS -/

theorem readP_eq_some {a : Nat} {b : Byte} {s : State} (h : readP a s = some b) :
    a < s.len.toNat ∧ s.p.read a = some b := by
  unfold readP at h
  split at h
  · next hlt => exact ⟨hlt, h⟩
  · cases h

theorem curByte_of_readP {i : Nat} {b : Byte} {s : State}
    (h : readP (s.pos.toNat + i) s = some b) : curByte i s = .ok b := by
  obtain ⟨hlt, hb⟩ := readP_eq_some h
  exact curByte_eq_ok hlt hb

theorem curRemaining_of_readP {i : Nat} {b : Byte} {s : State}
    (h : readP (s.pos.toNat + i) s = some b) : i + 1 ≤ curRemaining s := by
  obtain ⟨hlt, -⟩ := readP_eq_some h
  unfold curRemaining; omega

/-- The bytes that decode to one item with none left are the ones the cursor reads for it. -/
theorem fetchBytes_of_decode {i : Instr} {bytes : List Byte} {s : State}
    (hread : ∀ j < bytes.length, readP (s.pos.toNat + j) s = bytes[j]?)
    (hd : decode (.payload (selectedKind s) bytes) = .ok (i, [])) : fetchBytes s = .ok bytes := by
  match hk : selectedKind s, bytes with
  | .mask, [b] => exact fetchBytes_one (by simp [hk]) (curByte_of_readP (hread 0 (by simp)))
  | .lit, [b] => exact fetchBytes_one (by simp [hk]) (curByte_of_readP (hread 0 (by simp)))
  | .copy, [lo, hi] =>
    have hhi := hread 1 (by simp)
    exact fetchBytes_two hk (curRemaining_of_readP hhi) (curByte_of_readP (hread 0 (by simp)))
      (curByte_of_readP hhi)
  | .mask, [] | .mask, _ :: _ :: _ | .lit, [] | .lit, _ :: _ :: _ | .copy, []
  | .copy, [_] | .copy, _ :: _ :: _ :: _ => rw [hk] at hd; cases hd

/-- Settles O21: the fetch reads the bytes that decode, and the turn runs what they decode to; a host
write of CTRL runs what its value decodes to. -/
theorem stepRunsDecodedInstruction : Obligations.StepRunsDecodedInstruction := by
  constructor
  · intro i bytes s hr hne hread hd
    have hturn : ∀ rest, engineTurn { s with schedule := rest } = exec i { s with schedule := rest } :=
      fun rest => engineTurn_of_fetch (s := { s with schedule := rest }) hr hne
        (fetchBytes_of_decode (s := { s with schedule := rest }) hread hd) hd
    refine ⟨fun hs => ?_, fun rest hs => ?_⟩
    · rw [step_empty hs]; exact hturn s.schedule
    · rw [step_engine hs, popTurn_of_cons hs, hturn rest]
  · intro i v s hd
    rw [step_write_ctrl, hostCommand, hd]

/-- Settles O22: one law of the engine's turn per row of the dispatcher's table. -/
theorem dispatcherSelectsByContext : Obligations.DispatcherSelectsByContext := by
  intro s b hm hr hb
  have h0 : curByte 0 s.popTurn = .ok b := curByte_of_readP (s := s.popTurn) hb
  have hlt : s.pos < s.len := pos_lt_of_remaining (curRemaining_of_readP (i := 0) hb)
  rw [step_of_engineMoves hm]
  exact ⟨engineTurn_mask (s := s.popTurn) hr hlt h0, engineTurn_lit (s := s.popTurn) hr hlt h0,
    fun hi hbits hflag hhi => engineTurn_copy (s := s.popTurn) hr (curRemaining_of_readP hhi) h0
      (curByte_of_readP (s := s.popTurn) hhi) hbits hflag⟩

/-- Settles O8: the selected mask fetch writes MASK, BITS and POS. -/
theorem maskTokenCompletes : Obligations.MaskTokenCompletes := by
  intro flags s hr hbits hlt
  rw [exec_mask_selected hr hlt hbits]; rfl

/-! ### The frame of the payload items -/

/-- What a payload item that appends n bytes leaves as it was: the inputs, O outside the appended bytes,
the fault record unless it faults, and all but the fault record if it does. -/
def ItemFrame (n : Nat) (s t : State) : Prop :=
  InputsKept s t ∧
    (∀ a, a < s.outlen.toNat ∨ s.outlen.toNat + n ≤ a → t.o.read a = s.o.read a) ∧
    (t.runState ≠ .fault → t.cause = s.cause ∧ t.farg = s.farg) ∧
    (t.runState = .fault → t.pos = s.pos ∧ t.outlen = s.outlen ∧ t.mask = s.mask ∧
      t.bits = s.bits ∧ t.src = s.src ∧ t.rem = s.rem ∧ t.o = s.o)

theorem itemFrame_takeFault (n : Nat) (c : Cause) (w : BitVec 16) (s : State) :
    ItemFrame n s (takeFault c w s) :=
  ⟨⟨rfl, rfl, rfl, rfl, rfl, rfl⟩, fun _ _ => rfl, fun h => absurd rfl h,
    fun _ => ⟨rfl, rfl, rfl, rfl, rfl, rfl, rfl⟩⟩

theorem itemFrame_maskFetch (n : Nat) (flags : Byte) {s : State} (hr : s.runState = .run) :
    ItemFrame n s (loadMask flags (curAdvance 1#32 s)) := by
  refine ⟨⟨rfl, rfl, rfl, rfl, rfl, rfl⟩, fun _ _ => rfl, fun _ => ⟨rfl, rfl⟩, fun h => ?_⟩
  rw [loadMask_runState, curAdvance_runState, hr] at h; cases h

/-- A token that raised no fault leaves RUN to DONE only. -/
theorem Appended.itemFrame {k n : Nat} {s u : State} (h : Appended k n s u)
    (hr : s.runState = .run) :
    ItemFrame n s (afterToken (curAdvance (BitVec.ofNat 32 k) u)) := by
  obtain ⟨-, -, -, hru, hcause, hfarg⟩ := h.control_kept
  refine ⟨by simpa [InputsKept] using h.inputsKept, by simpa using h.frame,
    by simp [hcause, hfarg], fun hf => ?_⟩
  rw [afterToken_runState, curAdvance_runState, hru, hr] at hf
  split at hf <;> cases hf

theorem exec_item_frame {i : Instr} {s t : State} (hi : isItem i = true) (h : exec i s = .next t) :
    ItemFrame (appendedBytes i) s t := by
  obtain ⟨hr, -, ⟨c, w, -, rfl⟩ | ⟨-, -, flags, rfl⟩ | ⟨-, k, u, hu, rfl⟩⟩ := item_next hi h
  · exact itemFrame_takeFault _ c w s
  · exact itemFrame_maskFetch _ flags hr
  · exact hu.itemFrame hr

theorem execMask_copyUnit_kept {flags : Byte} {s t : State} (h : execMask flags s = .next t) :
    t.src = s.src ∧ t.rem = s.rem := by
  unfold execMask at h
  split at h
  · cases h; exact ⟨rfl, rfl⟩
  · cases h

theorem execLit_copyUnit_kept {v : Byte} {s t : State} (h : execLit v s = .next t) :
    t.src = s.src ∧ t.rem = s.rem := by
  obtain ⟨-, -, -, ⟨c, w, -, rfl⟩ | ⟨u, -, hsrc, hrem, rfl⟩⟩ := execLit_next h
  · exact ⟨rfl, rfl⟩
  · simp [hsrc, hrem]

/-- Settles O19: the frame by what an item can answer; of the items only the copies load the copy unit. -/
theorem payloadItemFrame : Obligations.PayloadItemFrame := by
  intro i s t hi h
  obtain ⟨hinputs, ho, hrecord, hfault⟩ := exec_item_frame hi h
  refine ⟨hinputs, ho, hrecord, hfault, fun hcopy hcopyD => ?_⟩
  cases i with
  | mask flags => exact execMask_copyUnit_kept h
  | lit v => exact execLit_copyUnit_kept h
  | copy f m => exact absurd rfl (hcopy f m)
  | copyD d m => exact absurd rfl (hcopyD d m)
  | start ignored => cases hi
  | rst b ignored => cases hi

end Sys2Proof.Machine
end

section
/-! SUPPORT. Of MASK a step reads the next flag alone: its other bits are carried along or lost (R119, R120). -/

namespace Sys2Proof.Machine

/-- The state with another mask register. -/
def withMask (other : Byte) (s : State) : State := { s with mask := other }

/-! ### No operation after the selection reads MASK -/

section MaskUnread

variable (other : Byte) (s : State)

/-- The after-token rule shifts MASK or keeps it, and decides by the cursor (R120). -/
theorem afterToken_withMask :
    withoutMask (afterToken (withMask other s)) = withoutMask (afterToken s) := by
  by_cases hend : s.pos = s.len
  · rw [afterToken_at_end hend, afterToken_at_end (s := withMask other s) hend]; rfl
  · rw [afterToken_inside hend, afterToken_inside (s := withMask other s) hend]; rfl

/-- The copy loop carries MASK along. -/
theorem copyLoop_withMask (k : Nat) :
    copyLoop k (withMask other s) = (copyLoop k s).map (withMask other) := by
  induction k generalizing s with
  | zero => rfl
  | succ k ih =>
    unfold copyLoop
    rw [show readO (withMask other s).src.toNat (withMask other s) = readO s.src.toNat s from rfl]
    cases readO s.src.toNat s with
    | none => rfl
    | some b => exact ih (copyByte b s)

theorem copyGood_withMask (q : Int) (n : BitVec 5) :
    viewNext withoutMask (copyGood q n (withMask other s)) =
      viewNext withoutMask (copyGood q n s) := by
  have hunit : copyUnit q n (withMask other s) = (copyUnit q n s).map (withMask other) :=
    copyLoop_withMask other (copyStart q n s) n.toNat
  unfold copyGood
  rw [hunit]
  cases copyUnit q n s with
  | error e => rfl
  | ok t => exact congrArg Host.Outcome.next (afterToken_withMask other (curAdvance 2 t))

end MaskUnread

/-! ### The selection reads the next flag -/

section NextFlagAgrees

variable {other : Byte} {s : State} (hflag : s.mask.getLsbD 0 = other.getLsbD 0)
include hflag

theorem selectedKind_withMask : selectedKind (withMask other s) = selectedKind s := by
  rw [selectedKind, selectedKind, nextFlag, nextFlag, hflag]; rfl

theorem selected_withMask (k : ItemKind) :
    selected k (withMask other s) = true ↔ selected k s = true := by
  rw [selected_iff, selected_iff, selectedKind_withMask hflag]; rfl

theorem fetchBytes_withMask : fetchBytes (withMask other s) = fetchBytes s := by
  rw [fetchBytes_eq, fetchBytes_eq s, selectedKind_withMask hflag]; rfl

theorem execLit_withMask (v : Byte) :
    viewNext withoutMask (execLit v (withMask other s)) =
      viewNext withoutMask (execLit v s) :=
  viewNext_ite (selected_withMask hflag .lit) (viewNext_ite Iff.rfl rfl (congrArg Host.Outcome.next
    (afterToken_withMask other (appendByte v (curAdvance 1 s))))) rfl

theorem copyToken_withMask (f : BitVec 12) (m : BitVec 4) :
    viewNext withoutMask (copyToken f m (withMask other s)) =
      viewNext withoutMask (copyToken f m s) := by
  refine viewNext_ite (selected_withMask hflag .copy) (viewNext_ite Iff.rfl rfl ?_) rfl
  rw [show (withMask other s).outlen = s.outlen from rfl]
  cases resolve f s.outlen with
  | none => rfl
  | some q => exact viewNext_ite Iff.rfl rfl (copyGood_withMask other s q (matchLength m))

theorem exec_withMask (i : Instr) :
    viewNext withoutMask (exec i (withMask other s)) = viewNext withoutMask (exec i s) := by
  cases i with
  | mask flags => exact viewNext_ite (selected_withMask hflag .mask) rfl rfl
  | lit v => exact execLit_withMask hflag v
  | copy f m => exact copyToken_withMask hflag f m
  | copyD d m => exact copyToken_withMask hflag (distanceField d s.outlen) m
  | start ignored => exact viewNext_ite Iff.rfl rfl rfl
  | rst b ignored => rfl

theorem runBytes_withMask (bytes : List Byte) :
    viewNext withoutMask (runBytes bytes (withMask other s)) =
      viewNext withoutMask (runBytes bytes s) := by
  unfold runBytes
  rw [selectedKind_withMask hflag]
  split
  · exact exec_withMask hflag _
  · unfold truncatedFault
    rw [show curPeekToken true (withMask other s) = curPeekToken true s from rfl]
    cases curPeekToken true s <;> rfl
  · rfl
  · rfl

theorem engineTurn_withMask :
    viewNext withoutMask (engineTurn (withMask other s)) =
      viewNext withoutMask (engineTurn s) := by
  refine viewNext_ite Iff.rfl (viewNext_ite Iff.rfl rfl ?_) rfl
  rw [fetchBytes_withMask hflag]
  cases fetchBytes s with
  | error e => rfl
  | ok bytes => exact runBytes_withMask hflag bytes

end NextFlagAgrees

/-- Settles O26: both steps are engine turns that select the same item, and no item reads MASK further. -/
theorem onlyTheNextFlagMatters : Obligations.OnlyTheNextFlagMatters := by
  intro s other hm hflag
  rw [step_of_engineMoves (s := { s with mask := other }) hm, step_of_engineMoves hm]
  exact engineTurn_withMask (s := s.popTurn) hflag

end Sys2Proof.Machine
end

section
/-! SUPPORT. The run computes the reference function (R121, R122): a running state stands for arguments of
`refRun`, and each turn of the engine does what one equation of `refRun` does. -/

namespace Sys2Proof.Machine

/-! ### The state that stands for the arguments of the reference function -/

/-- The flags of the mask still unused, the next one first (R119). -/
def flagsDue (s : State) : List Bool := (List.range s.bits.toNat).map s.mask.getLsbD

/-- The payload bytes from POS to LEN - 1 are this list. -/
def PayloadLeft (rest : List Byte) (s : State) : Prop :=
  s.len.toNat = s.pos.toNat + rest.length ∧ ∀ i < rest.length, s.p.read (s.pos.toNat + i) = rest[i]?

/-- A running state, the host quiet, at the point of the run that `refRun cap flags pos out rest`
describes. -/
structure RunsAs (cap : Nat) (flags : List Bool) (pos : Nat) (out rest : List Byte) (s : State) :
    Prop where
  running : s.runState = .run
  quiet : s.schedule = []
  noCause : s.cause = .none
  capacity : s.cfg.outCap.toNat = cap
  flags : flagsDue s = flags
  cursor : s.pos.toNat = pos
  output : OutputIs out s
  left : PayloadLeft rest s

/-- At most n steps from s lead to the end state of the result. -/
def EndsWithin (n : Nat) (r : RunResult) (s : State) : Prop :=
  ∃ k t, k ≤ n ∧ Sys2Proof.core.run k s = .next t ∧ EndsAs r t

theorem endsWithin_of_endsAs {n : Nat} {r : RunResult} {s : State} (h : EndsAs r s) :
    EndsWithin n r s :=
  ⟨0, s, Nat.zero_le n, rfl, h⟩

theorem endsWithin_of_step {n : Nat} {r : RunResult} {s t : State} (h : step s = .next t)
    (ht : EndsWithin n r t) : EndsWithin (n + 1) r s := by
  obtain ⟨k, u, hk, hrun, hu⟩ := ht
  exact ⟨k + 1, u, Nat.succ_le_succ hk, run_succ h hrun, hu⟩

theorem EndsWithin.mono {m n : Nat} {r : RunResult} {s : State} (h : EndsWithin m r s)
    (hmn : m ≤ n) : EndsWithin n r s := by
  obtain ⟨k, t, hk, hrun, ht⟩ := h
  exact ⟨k, t, hk.trans hmn, hrun, ht⟩

/-! ### Flags, payload and output -/

theorem flagsDue_eq_nil {s : State} (h : flagsDue s = []) : s.bits = 0 := by
  have h0 : s.bits.toNat = 0 := by simpa [flagsDue] using h
  exact BitVec.eq_of_toNat_eq h0

theorem flagsDue_eq_cons {f : Bool} {flags : List Bool} {s : State} (h : flagsDue s = f :: flags) :
    0 < s.bits ∧ s.mask.getLsbD 0 = f ∧ flagsDue (shiftFlag s) = flags := by
  cases hn : s.bits.toNat with
  | zero => simp [flagsDue, hn] at h
  | succ n =>
    have hbits : (s.bits - 1#4).toNat = n := by
      have := s.bits.isLt
      rw [BitVec.toNat_sub, hn, BitVec.toNat_ofNat]; omega
    rw [flagsDue, hn, List.range_succ_eq_map, List.map_cons, List.map_map] at h
    obtain ⟨hf, hflags⟩ := List.cons.inj h
    refine ⟨by rw [BitVec.lt_def, hn]; exact Nat.succ_pos n, hf, ?_⟩
    rw [← hflags, flagsDue, shiftFlag_bits, shiftFlag_mask, hbits]
    exact List.map_congr_left fun i _ => by
      rw [BitVec.getLsbD_ushiftRight, Nat.add_comm]; rfl

theorem PayloadLeft.remaining {rest : List Byte} {s : State} (h : PayloadLeft rest s) :
    curRemaining s = rest.length := by
  have := h.1
  unfold curRemaining; omega

theorem PayloadLeft.byteAt {rest : List Byte} {s : State} (h : PayloadLeft rest s) {i : Nat}
    (hi : i < rest.length) : curByte i s = .ok rest[i] := by
  obtain ⟨hlen, hread⟩ := h
  exact curByte_eq_ok (by omega) ((hread i hi).trans (List.getElem?_eq_getElem hi))

theorem PayloadLeft.pos_eq_len_iff {rest : List Byte} {s : State} (h : PayloadLeft rest s) :
    s.pos = s.len ↔ rest = [] := by
  have := h.1
  rw [← BitVec.toNat_inj, ← List.length_eq_zero_iff]; omega

theorem OutputIs.append {out : List Byte} {s : State} (h : OutputIs out s) (b : Byte)
    (hw : out.length + 1 < 2 ^ 32) : OutputIs (out ++ [b]) (appendByte b s) := by
  obtain ⟨hlen, hread⟩ := h
  have hlen' := outlen_add_one (s := s) (by omega)
  refine ⟨by rw [appendByte_outlen, hlen', hlen, List.length_append]; rfl, fun i hi => ?_⟩
  rw [List.length_append, List.length_singleton] at hi
  rw [readO_eq (by rw [appendByte_outlen]; omega), appendByte_o, Memory.read_write, hlen]
  split
  · next heq => rw [heq, List.getElem?_concat_length]
  · next hne =>
    rw [List.getElem?_append_left (by omega), ← hread i (by omega), readO_eq (by omega)]

/-- The copy loop appends to O what the reference copy appends to its list. -/
theorem copyLoop_refCopy {k p : Nat} {out : List Byte} {s : State} (h : OutputIs out s)
    (hsrc : s.src.toNat = p) (hp : p < out.length) (hw : out.length + k < 2 ^ 32) :
    ∃ u, copyLoop k s = .ok u ∧ OutputIs (refCopy k p out) u := by
  induction k generalizing p out s with
  | zero => exact ⟨s, rfl, h⟩
  | succ k ih =>
    have hb : out[p]? = some out[p] := List.getElem?_eq_getElem hp
    have hread : readO s.src.toNat s = some out[p] := by rw [hsrc, h.2 p hp, hb]
    have hsrc' : (copyByte out[p] s).src.toNat = p + 1 := by
      rw [copyByte_src, src_add_one (by omega), hsrc]
    rw [copyLoop, hread, refCopy, hb]
    exact ih (s := copyByte out[p] s) (h.append out[p] (by omega)) hsrc' (by simp; omega)
      (by simp; omega)

/-! ### What a turn does to the arguments -/

section Turn

variable {cap pos : Nat} {flags : List Bool} {out rest : List Byte} {s : State}

theorem RunsAs.step_eq (h : RunsAs cap flags pos out rest s) : step s = engineTurn s :=
  step_empty h.quiet

theorem RunsAs.endsAs_takeFault (h : RunsAs cap flags pos out rest s) (c : Cause)
    (w : BitVec 16) : EndsAs (.fault c pos w out) (takeFault c w s) :=
  ⟨rfl, rfl, h.cursor, rfl, h.output⟩

theorem RunsAs.endsAs_endRun (h : RunsAs cap flags pos out [] s) : EndsAs (.ok out) (endRun s) :=
  ⟨rfl, h.left.pos_eq_len_iff.mpr rfl, h.noCause, h.output⟩

theorem RunsAs.pos_lt {b : Byte} (h : RunsAs cap flags pos out (b :: rest) s) : s.pos < s.len :=
  pos_lt_of_remaining (k := rest.length) h.left.remaining.ge

/-- Consuming one or two bytes drops them from the payload left. -/
theorem RunsAs.advance (h : RunsAs cap flags pos out rest s) {k : Nat} (hk : k = 1 ∨ k = 2)
    (hle : k ≤ rest.length) :
    RunsAs cap flags (pos + k) out (rest.drop k) (curAdvance (BitVec.ofNat 32 k) s) := by
  obtain ⟨hpos, -⟩ := curAdvance_toNat (s := s) (by rwa [h.left.remaining]) hk
  obtain ⟨hlen, hread⟩ := h.left
  refine { h with cursor := by rw [curAdvance_pos, hpos, h.cursor], left := ⟨?_, fun i hi => ?_⟩ }
  · rw [curAdvance_len, curAdvance_pos, hpos, List.length_drop]; omega
  · rw [List.length_drop] at hi
    rw [curAdvance_p, curAdvance_pos, hpos, List.getElem?_drop, ← hread _ (by omega), Nat.add_assoc]

/-- Appending writes O, OUTLEN, SRC and REM, of which the arguments hold the output alone. -/
theorem RunsAs.append {out' : List Byte} {u : State} (h : RunsAs cap flags pos out rest s)
    (hu : u = { s with o := u.o, outlen := u.outlen, src := u.src, rem := u.rem })
    (ho : OutputIs out' u) : RunsAs cap flags pos out' rest u := by
  obtain ⟨hrun, hquiet, hcause, hcap, hflags, hpos, -, hleft⟩ := h
  rw [hu] at ho ⊢
  exact ⟨hrun, hquiet, hcause, hcap, hflags, hpos, ho, hleft⟩

theorem RunsAs.maskLoaded (h : RunsAs cap flags pos out rest s) (b : Byte) :
    RunsAs cap (maskFlags b) pos out rest (loadMask b s) :=
  { h with flags := rfl }

/-- After a token the run ends with the payload, or goes on with one flag less (R120). -/
theorem RunsAs.tokenDone {f : Bool} (h : RunsAs cap (f :: flags) pos out rest s) :
    rest = [] ∧ EndsAs (.ok out) (afterToken s) ∨ RunsAs cap flags pos out rest (afterToken s) := by
  by_cases hrest : rest = []
  · subst hrest
    rw [afterToken_at_end (h.left.pos_eq_len_iff.mpr rfl)]
    exact .inl ⟨rfl, h.endsAs_endRun⟩
  · rw [afterToken_inside (mt h.left.pos_eq_len_iff.mp hrest)]
    obtain ⟨-, -, hflags⟩ := flagsDue_eq_cons h.flags
    exact .inr { h with flags := hflags }

/-! ### One turn for each equation of the reference function -/

theorem RunsAs.step_end (h : RunsAs cap flags pos out [] s) : step s = .next (endRun s) := by
  rw [h.step_eq]
  exact engineTurn_at_end h.running (h.left.pos_eq_len_iff.mpr rfl)

theorem RunsAs.step_mask {b : Byte} (h : RunsAs cap [] pos out (b :: rest) s) :
    step s = .next (loadMask b (curAdvance 1 s)) := by
  have hbits := flagsDue_eq_nil h.flags
  rw [h.step_eq, engineTurn_mask h.running h.pos_lt (h.left.byteAt (Nat.succ_pos _)) hbits,
    exec_mask_selected h.running h.pos_lt hbits]
  rfl

theorem RunsAs.step_lit {b : Byte} (h : RunsAs cap (true :: flags) pos out (b :: rest) s) :
    step s = exec (.lit b) s := by
  obtain ⟨hbits, hflag, -⟩ := flagsDue_eq_cons h.flags
  rw [h.step_eq]
  exact engineTurn_lit h.running h.pos_lt (h.left.byteAt (Nat.succ_pos _)) hbits hflag

theorem RunsAs.step_lit_overflow {b : Byte} (h : RunsAs cap (true :: flags) pos out (b :: rest) s)
    (hcap : cap < out.length + 1) :
    step s = .next (takeFault .outputOverflow (tokenBytes b 0) s) := by
  obtain ⟨hbits, hflag, -⟩ := flagsDue_eq_cons h.flags
  have hsel := (selected_iff .lit s).mpr ⟨h.running, h.pos_lt, selectedKind_lit hbits hflag⟩
  have hover : exceedsCap 1 s = true := by rwa [exceedsCap_iff, h.capacity, h.output.1]
  rw [h.step_lit]
  exact (if_pos hsel).trans (if_pos hover)

/-- The literal that fits: the state before the after-token rule. -/
theorem RunsAs.step_lit_fits {b : Byte} (h : RunsAs cap (true :: flags) pos out (b :: rest) s)
    (hcap : ¬ cap < out.length + 1) :
    ∃ u, step s = .next (afterToken u) ∧
      RunsAs cap (true :: flags) (pos + 1) (out ++ [b]) rest u := by
  obtain ⟨hbits, hflag, -⟩ := flagsDue_eq_cons h.flags
  have hfits : s.outlen.toNat + 1 ≤ s.cfg.outCap.toNat := by rw [h.capacity, h.output.1]; omega
  have hcapLt := s.cfg.outCap.isLt
  have hadv := h.advance (.inl rfl) (Nat.succ_pos _)
  refine ⟨_, h.step_lit.trans (exec_lit_fits h.running h.pos_lt hbits hflag hfits), ?_⟩
  exact hadv.append rfl (hadv.output.append b (by rw [← h.output.1]; omega))

/-- A copy cut short raises TruncatedCopy with the one byte left (R136, R177). -/
theorem RunsAs.step_cut {b : Byte} (h : RunsAs cap (false :: flags) pos out [b] s) :
    step s = .next (takeFault .truncatedCopy (tokenBytes b 0) s) := by
  obtain ⟨hbits, hflag, -⟩ := flagsDue_eq_cons h.flags
  have hk := selectedKind_copy hbits hflag
  have hrem : curRemaining s = 1 := h.left.remaining
  have h0 : curByte 0 s = .ok b := h.left.byteAt Nat.one_pos
  have hfetch : fetchBytes s = .ok [b] := by
    rw [fetchBytes, if_neg (by omega), curNext1_eq_ok h0]
  have hlast : ¬ s.pos.toNat + 1 < s.len.toNat := by unfold curRemaining at hrem; omega
  have hpeek : curPeekToken true s = .ok (tokenBytes b 0) := by
    rw [curPeekToken, h0]; simp [hlast]
  have hend : ¬ curAtEnd s = true := by simpa [curAtEnd] using BitVec.ne_of_lt h.pos_lt
  rw [h.step_eq, engineTurn, if_pos (busy_iff.mpr h.running), engineStep, if_neg hend, hfetch]
  simp only [runBytes, hk, decode, decodePayload, truncatedFault, hpeek]

theorem RunsAs.step_copy {lo hi : Byte}
    (h : RunsAs cap (false :: flags) pos out (lo :: hi :: rest) s) :
    step s = copyToken (rawField lo hi) (lengthField hi) s := by
  obtain ⟨hbits, hflag, -⟩ := flagsDue_eq_cons h.flags
  rw [h.step_eq, engineTurn_copy h.running (by rw [h.left.remaining]; simp)
    (h.left.byteAt (by simp)) (h.left.byteAt (i := 1) (by simp)) hbits hflag]
  rfl

/-- A copy token that is due, by the tests of R135 on the corrected position. -/
theorem copyToken_eq {f : BitVec 12} {m : BitVec 4} (hsel : selected .copy s = true)
    (hrem : 2 ≤ curRemaining s) :
    copyToken f m s =
      if corrected f s.outlen < 0 ∨ (s.outlen.toNat : Int) ≤ corrected f s.outlen then
        .next (takeFault .badBackReference (copyFarg f m) s)
      else if s.cfg.outCap.toNat < s.outlen.toNat + (matchLength m).toNat then
        .next (takeFault .outputOverflow (copyFarg f m) s)
      else copyGood (corrected f s.outlen) (matchLength m) s := by
  rw [copyToken, if_pos hsel, if_neg (by omega), resolve]
  by_cases hout : corrected f s.outlen < 0 ∨ (s.outlen.toNat : Int) ≤ corrected f s.outlen
  · rw [if_pos hout, if_pos hout]
  · rw [if_neg hout, if_neg hout]
    simp only [exceedsCap_iff]

/-- The reference's copy branch by the same tests, at an output length that a word holds. -/
theorem refCopyToken_eq {lo hi : Byte} {n : Word} (hn : n.toNat = out.length) :
    refCopyToken cap pos lo hi out =
      if corrected (rawField lo hi) n < 0 ∨ (n.toNat : Int) ≤ corrected (rawField lo hi) n then
        .error (.fault .badBackReference pos (tokenBytes lo hi) out)
      else if cap < n.toNat + (matchLength (lengthField hi)).toNat then
        .error (.fault .outputOverflow pos (tokenBytes lo hi) out)
      else .ok (refCopy (matchLength (lengthField hi)).toNat
        (corrected (rawField lo hi) n).toNat out) := by
  rw [refCopyToken, ← rawField_toNat, ← hn, refPosition_eq, matchLength_toNat, lengthField_toNat]
  rfl

theorem copyFarg_of_bytes (lo hi : Byte) :
    copyFarg (rawField lo hi) (lengthField hi) = tokenBytes lo hi := by
  rw [copyFarg, copyLo_rawField, copyHi_of_fields]

/-- A copy at a position inside the output, with room for it: the state before the after-token rule. -/
theorem RunsAs.copyGood_next {p : Int} {n : BitVec 5} {lo hi : Byte}
    (h : RunsAs cap flags pos out (lo :: hi :: rest) s) (h0 : 0 ≤ p) (hp : p < s.outlen.toNat)
    (hcap : s.outlen.toNat + n.toNat ≤ s.cfg.outCap.toNat) :
    ∃ u, copyGood p n s = .next (afterToken u) ∧
      RunsAs cap flags (pos + 2) (refCopy n.toNat p.toNat out) rest u := by
  have hlen := h.output.1
  have hcapLt := s.cfg.outCap.isLt
  obtain ⟨u, hu, hout⟩ := copyLoop_refCopy (k := n.toNat) (s := copyStart p n s) h.output
    (copyStart_src_toNat h0 hp) (by omega) (by omega)
  refine ⟨curAdvance 2 u, by rw [copyGood, copyUnit, hu], ?_⟩
  exact (h.append (copyLoop_only (s := copyStart p n s) hu) hout).advance (.inr rfl) (by simp)

/-- A copy with both bytes does what the reference's copy branch does: the same fault, or the same longer
output. -/
theorem RunsAs.step_copy_cases {lo hi : Byte}
    (h : RunsAs cap (false :: flags) pos out (lo :: hi :: rest) s) :
    (∃ r t, refCopyToken cap pos lo hi out = .error r ∧ step s = .next t ∧ EndsAs r t) ∨
      ∃ out' u, refCopyToken cap pos lo hi out = .ok out' ∧ step s = .next (afterToken u) ∧
        RunsAs cap (false :: flags) (pos + 2) out' rest u := by
  obtain ⟨hbits, hflag, -⟩ := flagsDue_eq_cons h.flags
  have hsel := (selected_iff .copy s).mpr ⟨h.running, h.pos_lt, selectedKind_copy hbits hflag⟩
  rw [h.step_copy, copyToken_eq hsel (by rw [h.left.remaining]; simp), copyFarg_of_bytes,
    refCopyToken_eq h.output.1, h.capacity]
  split
  · exact .inl ⟨_, _, rfl, rfl, h.endsAs_takeFault _ _⟩
  · next hinside =>
    split
    · exact .inl ⟨_, _, rfl, rfl, h.endsAs_takeFault _ _⟩
    · next hfits =>
      obtain ⟨u, hu, hruns⟩ := h.copyGood_next (p := corrected (rawField lo hi) s.outlen)
        (n := matchLength (lengthField hi)) (by omega) (by omega)
        (by rw [h.capacity]; omega)
      exact .inr ⟨_, u, rfl, hu, hruns⟩

end Turn

/-! ### The run -/

section Run

variable {cap pos : Nat} {flags : List Bool} {out rest : List Byte} {s : State}

/-- The state after a token's bytes, with the after-token rule still due, ends as the reference goes on. -/
theorem RunsAs.endsWithin_afterToken {f : Bool} (h : RunsAs cap (f :: flags) pos out rest s)
    (hgo : ∀ t, RunsAs cap flags pos out rest t →
      EndsWithin (rest.length + 1) (refRun cap flags pos out rest) t) :
    EndsWithin (rest.length + 1) (refRun cap flags pos out rest) (afterToken s) := by
  rcases h.tokenDone with ⟨rfl, hends⟩ | hruns
  · exact endsWithin_of_endsAs (by simpa only [refRun] using hends)
  · exact hgo _ hruns

/-- A state that stands for the reference's arguments ends as the reference does, in at most one step more
than there are bytes left: by the equations of `refRun`, one turn for each. -/
theorem RunsAs.endsWithin (h : RunsAs cap flags pos out rest s) :
    EndsWithin (rest.length + 1) (refRun cap flags pos out rest) s := by
  fun_induction refRun cap flags pos out rest generalizing s with
  | case1 => exact endsWithin_of_step h.step_end (endsWithin_of_endsAs h.endsAs_endRun)
  | case2 pos out b rest ih =>
    exact endsWithin_of_step h.step_mask
      (ih ((h.advance (.inl rfl) (Nat.succ_pos _)).maskLoaded b))
  | case3 flags pos out b rest hover =>
    exact endsWithin_of_step (h.step_lit_overflow hover)
      (endsWithin_of_endsAs (h.endsAs_takeFault _ _))
  | case4 flags pos out b rest hfits ih =>
    obtain ⟨u, hstep, hu⟩ := h.step_lit_fits hfits
    exact endsWithin_of_step hstep (hu.endsWithin_afterToken fun _ => ih)
  | case5 flags pos out b =>
    exact endsWithin_of_step h.step_cut (endsWithin_of_endsAs (h.endsAs_takeFault _ _))
  | case6 flags pos out lo hi rest r href =>
    rcases h.step_copy_cases with ⟨r', t, href', hstep, hends⟩ | ⟨out', u, href', -⟩
    · cases href.symm.trans href'
      exact endsWithin_of_step hstep (endsWithin_of_endsAs hends)
    · cases href.symm.trans href'
  | case7 flags pos out lo hi rest out' href ih =>
    rcases h.step_copy_cases with ⟨r, t, href', -⟩ | ⟨out'', u, href', hstep, hu⟩
    · cases href.symm.trans href'
    · cases href.symm.trans href'
      exact (endsWithin_of_step hstep (hu.endsWithin_afterToken fun _ => ih)).mono
        (Nat.le_succ _)

end Run

/-- START puts a block that holds a payload at the point where `decompress` begins (R122, R161). -/
theorem runsAs_beginRun {payload : List Byte} {s : State} (hs : s.schedule = [])
    (hp : HoldsPayload payload s) :
    RunsAs s.cfg.outCap.toNat [] 0 [] payload (beginRun s) := by
  obtain ⟨hlen, hread⟩ := hp
  refine ⟨rfl, hs, rfl, rfl, rfl, rfl, ⟨rfl, fun i hi => absurd hi (Nat.not_lt_zero i)⟩, ?_, ?_⟩
  · simpa using hlen
  · simpa using hread

/-- Settles O43: START begins at the arguments of `decompress`, and the run ends as the reference does. -/
theorem runComputesDecompress : Obligations.RunComputesDecompress := by
  intro payload s hr hs hp
  obtain ⟨k, t, hk, hrun, hends⟩ := (runsAs_beginRun hs hp).endsWithin
  exact ⟨beginRun s, k, t, exec_start_outside_run hr 0, hk, hrun, hends⟩

/-! ### Every run ends -/

theorem exists_list_of_isSome {n : Nat} {read : Nat → Option Byte}
    (h : ∀ i < n, (read i).isSome) :
    ∃ bytes : List Byte, bytes.length = n ∧ ∀ i < n, read i = bytes[i]? :=
  ⟨List.ofFn fun i : Fin n => (read i).get (h i i.isLt), List.length_ofFn, fun i hi => by
    rw [List.getElem?_ofFn, dif_pos hi, Option.some_get]⟩

/-- A running state that meets the invariants with the payload written stands for some arguments of the
reference function. -/
theorem exists_runsAs {s : State} (hinv : BlockInv s) (hr : s.runState = .run)
    (hs : s.schedule = []) (hp : PayloadWritten s) :
    ∃ flags out rest, rest.length = s.len.toNat - s.pos.toNat ∧
      RunsAs s.cfg.outCap.toNat flags s.pos.toNat out rest s := by
  obtain ⟨hle, -, -, -, hcause, -, -, -, hheld, -⟩ := (blockInv_run_iff hr).mp hinv
  rw [BitVec.le_def] at hle
  obtain ⟨out, holen, hout⟩ := exists_list_of_isSome (n := s.outlen.toNat)
    (read := fun a => readO a s) fun a ha => by
      rw [readO_eq ha, Memory.read_isSome_iff, hheld]; exact List.mem_range.mpr ha
  obtain ⟨rest, hrlen, hrest⟩ := exists_list_of_isSome (n := s.len.toNat - s.pos.toNat)
    (read := fun i => s.p.read (s.pos.toNat + i)) fun i hi => hp _ (by omega)
  exact ⟨flagsDue s, out, rest, hrlen, hr, hs, hcause, rfl, rfl, rfl,
    ⟨holen.symm, fun i hi => hout i (holen ▸ hi)⟩, by omega, fun i hi => hrest i (hrlen ▸ hi)⟩

theorem runOver_of_endsAs {r : RunResult} {s : State} (h : EndsAs r s) : runOver s = true := by
  cases r with
  | ok out => exact (evt_iff s).mpr (.inl h.1)
  | fault c pos farg out => exact (evt_iff s).mpr (.inr h.1)

/-- Settles O42: the state stands for some arguments of the reference function, and the run from it ends
within one step more than there are bytes left. -/
theorem runTerminates : Obligations.RunTerminates := by
  intro s hinv hr hs hp
  obtain ⟨flags, out, rest, hlen, hruns⟩ := exists_runsAs hinv hr hs hp
  obtain ⟨k, t, hk, hrun, hends⟩ := hruns.endsWithin
  exact ⟨k, t, by omega, hrun, runOver_of_endsAs hends⟩

end Sys2Proof.Machine
end

section
/-! SUPPORT. LIT by its capacity test (R130): the literal that fits and its after-token rule (R120), and
the overflow. -/

namespace Sys2Proof.Machine

/-- The append writes past the output, so the bytes below OUTLEN read as before (R53). -/
theorem readO_appendByte_below {a : Nat} {b : Byte} {s : State} (ha : a < s.outlen.toNat)
    (h : s.outlen.toNat + 1 < 2 ^ 32) : readO a (appendByte b s) = readO a s := by
  have hlen := outlen_add_one h
  rw [readO_eq ha, readO_eq (by rw [appendByte_outlen]; omega), appendByte_o,
    Memory.read_write_other _ _ (Nat.ne_of_lt ha)]

theorem exec_lit_overflows {b : Byte} {s : State} (hr : s.runState = .run) (hlt : s.pos < s.len)
    (hbits : 0 < s.bits) (hflag : s.mask.getLsbD 0 = true)
    (hcap : s.cfg.outCap.toNat < s.outlen.toNat + 1) :
    exec (.lit b) s = .next (takeFault .outputOverflow (oneByteFarg b) s) := by
  have hsel := (selected_iff .lit s).mpr ⟨hr, hlt, selectedKind_lit hbits hflag⟩
  exact (if_pos hsel).trans (if_pos (exceedsCap_iff.mpr hcap))

/-- Settles O9: with room the literal is the append and the after-token rule on the moved cursor, without
room it is the fault record alone. -/
theorem literalTokenCompletes : Obligations.LiteralTokenCompletes := by
  intro v s hr hbits hflag hlt
  refine ⟨fun hcap => ?_, fun hcap => exec_lit_overflows hr hlt hbits hflag hcap⟩
  have hroom : (curAdvance 1 s).outlen.toNat + 1 < 2 ^ 32 := by
    rw [curAdvance_outlen]
    exact hcap.trans_lt s.cfg.outCap.isLt
  have hended : EndedOrShifted s (afterToken (appendByte v (curAdvance 1 s))) :=
    afterToken_endedOrShifted hr rfl rfl rfl
  refine ⟨_, exec_lit_fits hr hlt hbits hflag hcap, ?_, fun a ha => ?_, ?_, by simp, hended,
    by simp [InputsKept], by simp, by simp, by simp, by simp⟩
  · rw [readO_afterToken]
    exact readO_appendByte_end hroom
  · rw [readO_afterToken]
    exact readO_appendByte_below ha hroom
  · rw [afterToken_outlen]
    exact outlen_add_one hroom

end Sys2Proof.Machine
end

section
/-! SUPPORT. COPY by its distance (R147, R148, R153): the resolver steps back d = (N - a) mod 4096 bytes from
the end of the output, and a copy with both bytes raises BadBackReference exactly where that step leaves
the output, else it is the closed form of the overlapping copy. -/

namespace Sys2Proof.Machine

/-! ### The resolver by the distance -/

theorem copyDistance_eq (f : BitVec 12) (n : Word) :
    (copyDistance f n : Int) = ((n.toNat : Int) - ((f.toNat + 18) % 4096 : Nat)) % 4096 := by
  rw [copyDistance, biasedField_toNat, windowSize]; omega

/-- The wraparound correction in one line: block base, candidate and correction together step back d bytes
from the end of the output (R147). -/
theorem corrected_eq_sub_copyDistance (f : BitVec 12) (n : Word) :
    corrected f n = (n.toNat : Int) - copyDistance f n := by
  rw [corrected_eq, copyDistance_eq]
  split <;> omega

/-- The bounds test of R142 read on the distance. -/
theorem corrected_outside_iff (f : BitVec 12) (n : Word) :
    (corrected f n < 0 ∨ (n.toNat : Int) ≤ corrected f n) ↔
      copyDistance f n = 0 ∨ n.toNat < copyDistance f n := by
  rw [corrected_eq_sub_copyDistance]; omega

theorem resolve_eq_none_iff (f : BitVec 12) (n : Word) :
    resolve f n = none ↔ copyDistance f n = 0 ∨ n.toNat < copyDistance f n := by
  rw [← corrected_outside_iff, resolve, ite_eq_left_iff]
  simp only [reduceCtorEq, imp_false, not_not]

theorem resolve_isSome_iff (f : BitVec 12) (n : Word) :
    (resolve f n).isSome ↔ 1 ≤ copyDistance f n ∧ copyDistance f n ≤ n.toNat := by
  rw [Option.isSome_iff_ne_none, ne_eq, resolve_eq_none_iff]; omega

/-- Settles O7: up to the first full window a field a >= N would step back past the start of the output,
and from then on only the distance 0 is left out. -/
theorem goodCopyFieldsByOutputLength : Obligations.GoodCopyFieldsByOutputLength := by
  intro f n
  have hd := copyDistance_eq f n
  rw [resolve_isSome_iff]
  exact ⟨fun hshort => by omega, fun hlong => by omega⟩

/-! ### COPY with both bytes -/

theorem selected_copy_of_due {s : State} (hrun : s.runState = .run) (hbits : 0 < s.bits)
    (hflag : s.mask.getLsbD 0 = false) (hrem : 2 ≤ curRemaining s) : selected .copy s = true :=
  (selected_iff .copy s).mpr ⟨hrun, pos_lt_of_remaining hrem, selectedKind_copy hbits hflag⟩

/-- Settles O15: the position test comes before the capacity test (R181). -/
theorem badBackReferenceFaults : Obligations.BadBackReferenceFaults := by
  intro f m s hrun hbits hflag hrem hout
  have hsel := selected_copy_of_due hrun hbits hflag hrem
  exact (copyToken_eq hsel hrem).trans (if_pos hout)

/-- A good copy ends its token in RUN or DONE. -/
theorem copyGood_not_fault {p : Int} {n : BitVec 5} {s t : State} (hrun : s.runState = .run)
    (hn : 3 ≤ n.toNat ∧ n.toNat ≤ 18) (hrem : 2 ≤ curRemaining s)
    (hcap : s.outlen.toNat + n.toNat ≤ s.cfg.outCap.toNat) (h : copyGood p n s = .next t) :
    t.runState ≠ .fault := by
  obtain ⟨u, hu, rfl⟩ := copyGood_next hn hrem hcap h
  obtain ⟨-, -, -, hkept, -, -⟩ := hu.control_kept
  rw [afterToken_runState, curAdvance_runState, hkept, hrun]
  split <;> simp

/-- Of the three ends of a copy token with both bytes only the first has this cause, so the position test
decides it. -/
theorem copyToken_badBackReference_iff {f : BitVec 12} {m : BitVec 4} {s : State}
    (hsel : selected .copy s = true) (hrem : 2 ≤ curRemaining s) :
    (∃ t, copyToken f m s = .next t ∧ t.runState = .fault ∧ t.cause = .badBackReference) ↔
      corrected f s.outlen < 0 ∨ (s.outlen.toNat : Int) ≤ corrected f s.outlen := by
  obtain ⟨hrun, -, -⟩ := (selected_iff .copy s).mp hsel
  rw [copyToken_eq hsel hrem]
  constructor
  · rintro ⟨t, ht, hfault, hcause⟩
    by_contra hin
    rw [if_neg hin] at ht
    split at ht
    · cases ht; cases hcause
    · next hfits =>
      exact copyGood_not_fault hrun (matchLength_range m) hrem (not_lt.mp hfits) ht hfault
  · intro hout
    exact ⟨_, if_pos hout, rfl, rfl⟩

/-- Settles O6: the corrected position is N - d, so the bounds test is the test on d. -/
theorem resolverDistanceForm : Obligations.ResolverDistanceForm := by
  refine ⟨fun f n => ⟨?_, resolve_eq_none_iff f n, fun hgood => ?_⟩,
    fun f m s hrun hbits hflag hrem => ?_⟩
  · rw [copyDistance_eq]; omega
  · have hd := copyDistance_eq f n
    exact ⟨resolve_copyDistance (by omega) (by omega), by omega, by omega, by omega⟩
  · have hsel := selected_copy_of_due hrun hbits hflag hrem
    exact (copyToken_badBackReference_iff hsel hrem).trans (corrected_outside_iff f s.outlen)

/-- Settles O10: a field with distance d from 1 to N resolves to N - d, and from there the copy token
completes in closed form. -/
theorem copyTokenCompletes : Obligations.CopyTokenCompletes := by
  intro f m s hrun hbits hflag hrem h1 hd hcap ho
  obtain ⟨t, ht, ⟨hkept, hcopied, hlen⟩, hrest⟩ :=
    copyToken_completes hrun hbits hflag hrem (resolve_copyDistance h1 hd) hcap ho
  exact ⟨t, ht, hkept, hcopied, hlen, hrest⟩

end Sys2Proof.Machine
end

section
/-! SUPPORT. The host's commands and accesses case by case (R161 to R167): START in and outside RUN, RST, the
register writes, and PWrite, PRead and ORead. -/

namespace Sys2Proof.Machine

/-! ### START and RST -/

theorem exec_start_in_run {s : State} (h : s.runState = .run) (ignored : BitVec 30) :
    exec (.start ignored) s = .next s :=
  if_pos (busy_iff.mpr h)

theorem InputsKept.refl (s : State) : InputsKept s s := ⟨rfl, rfl, rfl, rfl, rfl, rfl⟩

theorem inputsKept_beginRun (s : State) : InputsKept s (beginRun s) :=
  ⟨rfl, rfl, rfl, rfl, rfl, rfl⟩

theorem readO_beginRun (a : Nat) (s : State) : readO a (beginRun s) = none :=
  if_neg (Nat.not_lt_zero a)

/-- Settles O12: outside RUN the command is `beginRun`. -/
theorem startBeginsRun : Obligations.StartBeginsRun := by
  intro ignored s hr
  exact ⟨beginRun s, exec_start_outside_run hr ignored, rfl, rfl, rfl, rfl, rfl, rfl, rfl,
    inputsKept_beginRun s, fun a => ⟨Memory.read_nil a, readO_beginRun a s⟩⟩

/-- Settles O13: in RUN the busy test comes first. -/
theorem startIgnoredInRun : Obligations.StartIgnoredInRun :=
  fun ignored _ hr => exec_start_in_run hr ignored

/-- Settles O14: RST and the Reset event both answer `resetBlock`. -/
theorem rstResetsBlock : Obligations.RstResetsBlock := by
  intro startBit ignored s
  exact ⟨resetBlock s, exec_rst startBit ignored s, rfl, rfl, rfl, rfl, rfl, rfl, rfl, rfl,
    Memory.read_nil, Memory.read_nil, step_withEvent .reset s⟩

/-- Settles O20: START answers the state itself in RUN and `beginRun` outside, RST `resetBlock`. -/
theorem hostCommandFrame : Obligations.HostCommandFrame := by
  refine ⟨fun ignored s t h => ?_, fun startBit ignored s t h => ?_⟩
  · by_cases hr : s.runState = .run
    · rw [exec_start_in_run hr] at h
      cases h
      exact ⟨InputsKept.refl s, rfl, rfl, fun _ => rfl⟩
    · rw [exec_start_outside_run hr] at h
      cases h
      exact ⟨inputsKept_beginRun s, rfl, rfl, fun hrun => absurd hrun hr⟩
  · rw [exec_rst] at h
    cases h
    exact ⟨rfl, rfl, rfl, rfl⟩

/-! ### Register writes -/

theorem writeLen_outside_run {s : State} (h : s.runState ≠ .run) (v : Word) :
    writeLen v s = { s with len := v } :=
  if_neg (mt busy_iff.mp h)

theorem writeLen_in_run {s : State} (h : s.runState = .run) (v : Word) : writeLen v s = s :=
  if_pos (busy_iff.mpr h)

theorem step_write_len (v : Word) (s : State) :
    step (withEvent (.regWrite 0x0C v) s) = .next (writeLen v s) := rfl

/-- A write at the offset of a register other than CTRL and LEN, or at an unassigned offset, is ignored
(R164). -/
theorem step_write_ignored {o : Nat} {w : Word} {s : State} (hctrl : o ≠ 0x00) (hlen : o ≠ 0x0C)
    (hreg : regValue o s = some w) (v : Word) :
    step (withEvent (.regWrite o v) s) = .next s := by
  rw [step_withEvent, hostTurn, hostRegWrite, if_neg hctrl, if_neg hlen, hreg]
  rfl

/-- Settles O32: LEN by the test for RUN, CTRL by its two command bits, the other registers and the
unassigned offsets by having a value to be read there. -/
theorem hostWritesRegisters : Obligations.HostWritesRegisters := by
  intro v s
  refine ⟨fun hr => ?_, fun hr => ?_, fun o ho => ?_, fun h1 => hostCommand_rst h1 s,
    fun h1 h0 => hostCommand_start h1 h0 s, fun h1 h0 => hostCommand_none h1 h0 s⟩
  · rw [step_write_len, writeLen_outside_run hr]
  · rw [step_write_len, writeLen_in_run hr]
  · rcases ho with rfl | rfl | rfl | rfl | rfl | hun
    iterate 5 exact step_write_ignored (by decide) (by decide) rfl v
    exact step_write_ignored (by omega) (by omega) (regValue_unassigned hun s) v

/-! ### Accesses to P and O -/

section OutsideRun

variable {s : State} (hr : s.runState ≠ .run) (addr : Word)
include hr

theorem step_pWrite (b : Byte) : step (withEvent (.pWrite addr b) s) = .next (writeP addr b s) :=
  if_neg (mt busy_iff.mp hr)

theorem step_pRead :
    step (withEvent (.pRead addr) s) = .next (setReply (pReadReply addr s) s) :=
  if_neg (mt busy_iff.mp hr)

theorem step_oRead :
    step (withEvent (.oRead addr) s) = .next (setReply (oReadReply addr s) s) :=
  if_neg (mt busy_iff.mp hr)

end OutsideRun

theorem pReadReply_written {addr : Word} {b : Byte} {s : State}
    (h : s.p.read addr.toNat = some b) : pReadReply addr s = .byte b := by
  rw [pReadReply, h]

theorem oReadReply_produced {addr : Word} {b : Byte} {s : State} (hevt : evt s = true)
    (hlt : addr < s.outlen) (h : s.o.read addr.toNat = some b) : oReadReply addr s = .byte b := by
  rw [oReadReply, if_pos hevt, readO_eq (BitVec.lt_def.mp hlt), h]

/-- In RUN an access to P or O has no defined result (R165, R204). -/
theorem step_access_in_run {e : HostEvent} {s : State} (hr : s.runState = .run)
    (he : ∃ addr b, e = .pWrite addr b ∨ e = .pRead addr ∨ e = .oRead addr) :
    step (withEvent e s) = .refused .hostAccessWhileRunning := by
  obtain ⟨addr, b, rfl | rfl | rfl⟩ := he <;> exact if_pos (busy_iff.mpr hr)

/-- Settles O33: PWrite by read after write, PRead and ORead by their replies, and in RUN the refusal. -/
theorem hostAccessesMemories : Obligations.HostAccessesMemories := by
  refine ⟨fun addr b s hr => ?_, fun addr b s hr hp => ?_, fun addr b s hover hlt ho => ?_,
    fun e s hr he => step_access_in_run hr he⟩
  · exact ⟨_, step_pWrite hr addr b, Memory.read_write_same _ _ _,
      fun a ha => Memory.read_write_other _ _ ha, rfl⟩
  · rw [step_pRead hr, pReadReply_written hp]
    rfl
  · have hr : s.runState ≠ .run := by
      rcases hover with h | h <;> simp [h]
    rw [step_oRead hr, oReadReply_produced ((evt_iff s).mpr hover) hlt ho]
    rfl

end Sys2Proof.Machine
end

section
/-! SUPPORT. The block's faults (R175 to R183): TruncatedCopy and OutputOverflow write the fault record and
nothing else, and whatever turn enters FAULT records the token that the cursor peeks. -/

namespace Sys2Proof.Machine

/-! ### The peeked token -/

/-- The second byte does not count for a literal, nor for a copy with one byte left (R108). -/
theorem curPeekToken_one {isCopy : Bool} {b : Byte} {s : State} (h0 : curByte 0 s = .ok b)
    (hone : isCopy = false ∨ curRemaining s = 1) :
    curPeekToken isCopy s = .ok (oneByteFarg b) := by
  have hsecond : ¬ (isCopy && decide (s.pos.toNat + 1 < s.len.toNat)) = true := by
    rcases hone with rfl | hrem
    · simp
    · unfold curRemaining at hrem
      simp only [Bool.and_eq_true, decide_eq_true_eq]
      omega
  simp only [curPeekToken, h0, if_neg hsecond, oneByteFarg]

theorem curPeekToken_two {lo hi : Byte} {s : State} (hrem : 2 ≤ curRemaining s)
    (h0 : curByte 0 s = .ok lo) (h1 : curByte 1 s = .ok hi) :
    curPeekToken true s = .ok (tokenBytes lo hi) := by
  have hsecond : s.pos.toNat + 1 < s.len.toNat := by unfold curRemaining at hrem; omega
  simp [curPeekToken, h0, h1, hsecond]

/-! ### TruncatedCopy -/

/-- The turn that finds a copy with one byte left takes the fault with that byte (R136, R177). -/
theorem engineTurn_cut {b : Byte} {s : State} (hr : s.runState = .run) (hbits : 0 < s.bits)
    (hflag : s.mask.getLsbD 0 = false) (hrem : curRemaining s = 1) (h0 : curByte 0 s = .ok b) :
    engineTurn s = .next (takeFault .truncatedCopy (oneByteFarg b) s) := by
  have hk := selectedKind_copy hbits hflag
  have hne := BitVec.ne_of_lt (pos_lt_of_remaining (k := 0) hrem.ge)
  have hend : ¬ curAtEnd s = true := by simpa [curAtEnd] using hne
  have hfetch : fetchBytes s = .ok [b] := by
    rw [fetchBytes, if_neg (by omega), curNext1_eq_ok h0]
  rw [engineTurn, if_pos (busy_iff.mpr hr), engineStep, if_neg hend, hfetch]
  simp only [runBytes, hk, decode, decodePayload, truncatedFault,
    curPeekToken_one h0 (.inr hrem)]

/-- The cut comes first of the copy token's tests (R181). -/
theorem copyToken_cut {f : BitVec 12} {m : BitVec 4} {s : State} (hr : s.runState = .run)
    (hbits : 0 < s.bits) (hflag : s.mask.getLsbD 0 = false) (hrem : curRemaining s = 1) :
    copyToken f m s = .next (takeFault .truncatedCopy (oneByteFarg (copyLo f)) s) := by
  have hlt := pos_lt_of_remaining (k := 0) hrem.ge
  have hsel := (selected_iff .copy s).mpr ⟨hr, hlt, selectedKind_copy hbits hflag⟩
  rw [copyToken, if_pos hsel, if_pos (by omega)]

/-- Settles O16: the engine's turn by what it fetches, COPY and COPY.D by the first test of the copy
token. -/
theorem truncatedCopyFaults : Obligations.TruncatedCopyFaults := by
  refine ⟨fun b s hm hr hbits hflag hrem hb => ?_, fun f m s hr hbits hflag hrem => ?_⟩
  · rw [step_of_engineMoves hm]
    exact engineTurn_cut (s := s.popTurn) hr hbits hflag hrem (curByte_of_readP (s := s.popTurn) hb)
  · refine ⟨copyToken_cut hr hbits hflag hrem, ?_⟩
    rintro d rfl
    exact copyToken_cut hr hbits hflag hrem

/-! ### OutputOverflow -/

/-- Settles O17: LIT and a COPY whose position lies inside the output, by their capacity tests. -/
theorem outputOverflowFaults : Obligations.OutputOverflowFaults := by
  refine ⟨fun v s hr hbits hflag hlt hcap => exec_lit_overflows hr hlt hbits hflag hcap,
    fun f m s hr hbits hflag hrem hlow hhigh hcap => ?_⟩
  have hsel := selected_copy_of_due hr hbits hflag hrem
  have hover : s.cfg.outCap.toNat < s.outlen.toNat + (matchLength m).toNat := by
    rwa [matchLength_toNat]
  exact (copyToken_eq hsel hrem).trans ((if_neg (by omega)).trans (if_pos hover))

/-! ### Entry to FAULT -/

/-- The turn took a fault with the token bytes w: the record is written and nothing else. -/
def TookFault (w : BitVec 16) (s t : State) : Prop :=
  ∃ c, c ≠ .none ∧ t = takeFault c w s

theorem execMask_not_fault {flags : Byte} {s t : State} (h : execMask flags s = .next t) :
    t.runState ≠ .fault := by
  unfold execMask at h
  split at h
  · next hsel =>
    obtain ⟨hr, -, -⟩ := (selected_iff _ _).mp hsel
    cases h
    simp [hr]
  · cases h

/-- Without room LIT records its byte, with room it does not fault. -/
theorem execLit_tookFault {v : Byte} {s t : State} (h : execLit v s = .next t)
    (hf : t.runState = .fault) : TookFault (oneByteFarg v) s t := by
  obtain ⟨hr, hlt, hk, -⟩ := execLit_next h
  rw [execLit, if_pos ((selected_iff _ _).mpr ⟨hr, hlt, hk⟩)] at h
  split at h
  · cases h; exact ⟨_, by decide, rfl⟩
  · cases h
    rw [afterToken_runState, appendByte_runState, curAdvance_runState, hr] at hf
    split at hf <;> cases hf

/-- Both faults of a copy with its two bytes record the two bytes. -/
theorem copyToken_tookFault {f : BitVec 12} {m : BitVec 4} {s t : State}
    (hrem : 2 ≤ curRemaining s) (h : copyToken f m s = .next t) (hf : t.runState = .fault) :
    TookFault (copyFarg f m) s t := by
  obtain ⟨hr, hlt, hk, -⟩ := copyToken_next h
  rw [copyToken_eq ((selected_iff _ _).mpr ⟨hr, hlt, hk⟩) hrem] at h
  split at h
  · cases h; exact ⟨_, by decide, rfl⟩
  · split at h
    · cases h; exact ⟨_, by decide, rfl⟩
    · next hfits =>
      exact absurd hf (copyGood_not_fault hr (matchLength_range m) hrem (not_lt.mp hfits) h)

/-- The fetch reads the two bytes of a copy, or the one byte at POS. -/
theorem fetchBytes_ok {bytes : List Byte} {s : State} (h : fetchBytes s = .ok bytes) :
    (∃ lo hi, selectedKind s = .copy ∧ 2 ≤ curRemaining s ∧ curByte 0 s = .ok lo ∧
        curByte 1 s = .ok hi ∧ bytes = [lo, hi]) ∨
      ∃ b, curByte 0 s = .ok b ∧ bytes = [b] := by
  rw [fetchBytes_eq] at h
  split at h
  · cases h
  · next b0 h0 =>
    split at h
    · next htwo =>
      split at h
      · cases h
      · next b1 h1 =>
        cases h
        exact .inl ⟨b0, b1, htwo.1, htwo.2, h0, h1, rfl⟩
    · cases h
      exact .inr ⟨b0, h0, rfl⟩

/-- An item run on the bytes that the fetch read faults with the token that the cursor peeks there. -/
theorem exec_fetched_tookFault {i : Instr} {bytes : List Byte} {s t : State}
    (hfetch : fetchBytes s = .ok bytes)
    (hd : decode (.payload (selectedKind s) bytes) = .ok (i, [])) (h : exec i s = .next t)
    (hf : t.runState = .fault) :
    ∃ w, curPeekToken (selectedKind s == .copy) s = .ok w ∧ TookFault w s t := by
  rcases fetchBytes_ok hfetch with ⟨lo, hi, hk, hrem, h0, h1, rfl⟩ | ⟨b, h0, rfl⟩
  · rw [hk] at hd ⊢
    cases hd
    have htook := copyToken_tookFault hrem h hf
    rw [copyFarg_of_bytes] at htook
    exact ⟨_, curPeekToken_two hrem h0 h1, htook⟩
  · cases hk : selectedKind s with
    | mask => rw [hk] at hd; cases hd; exact absurd hf (execMask_not_fault h)
    | lit =>
      rw [hk] at hd
      cases hd
      exact ⟨_, curPeekToken_one h0 (.inl rfl), execLit_tookFault h hf⟩
    | copy => rw [hk] at hd; cases hd

theorem engineTurn_tookFault {s t : State} (hr : s.runState = .run) (h : engineTurn s = .next t)
    (hf : t.runState = .fault) :
    ∃ w, curPeekToken (selectedKind s == .copy) s = .ok w ∧ TookFault w s t := by
  rcases engineTurn_next h with ⟨hnot, -⟩ | ⟨-, -, rfl⟩ | ⟨-, -, hk, w, hw, rfl⟩ |
    ⟨-, i, bytes, -, hfetch, hd, hexec⟩
  · exact absurd hr hnot
  · cases hf
  · rw [hk]
    exact ⟨w, hw, _, by decide, rfl⟩
  · exact exec_fetched_tookFault hfetch hd hexec hf

/-- Settles O18: the turn that enters FAULT is `takeFault` with the peeked token, on the state whose
schedule has lost the turn. -/
theorem faultEntryChangesOnlyRecord : Obligations.FaultEntryChangesOnlyRecord := by
  intro s t hm hr h hf
  rw [step_of_engineMoves hm] at h
  obtain ⟨w, hw, c, hc, rfl⟩ := engineTurn_tookFault (s := s.popTurn) hr h hf
  exact ⟨hc, rfl, hw⟩

end Sys2Proof.Machine
end

section
/-! SUPPORT. What the Reset event answers, and that the engine rests after it. -/

namespace Sys2Proof.Machine

/-! ### The Reset event -/

theorem step_reset (s : State) : step (withEvent .reset s) = .next (resetBlock s) :=
  step_withEvent .reset s

theorem evt_resetBlock (s : State) : evt (resetBlock s) = false := rfl

/-- Outside RUN the engine's turn changes nothing, and the reset block is IDLE (R200). -/
theorem engineTurn_resetBlock (s : State) : engineTurn (resetBlock s) = .next (resetBlock s) :=
  engineTurn_outside_run (by simp)

/-- Settles O29: Reset and RST both answer `resetBlock`, where the engine rests. -/
theorem resetEventResetsBlock : Obligations.ResetEventResetsBlock := by
  intro s
  refine ⟨resetBlock s, step_reset s, rfl, rfl, rfl, rfl, rfl, rfl, rfl, rfl, evt_resetBlock s,
    fun a => ⟨Memory.read_nil a, Memory.read_nil a⟩, fun b ignored => exec_rst b ignored s, ?_⟩
  intro u hu
  rw [engineTurn_resetBlock] at hu
  cases hu
  exact resetBlock_runState s

end Sys2Proof.Machine
end
